-- ==== Sys2Proof/Word.lean ====
section
/-! DEFINITION. The machine's one data type (spec 00_scope.md rules R4, R5) and the cell of its memory. -/

namespace Sys2Proof

/-- A Word: a signed two's complement integer of `WORD_BITS` = 64 bits, the type of data, of addresses and of
`ip` (R4, R5; the width is the spec's decision D1). Its value as an integer is `toInt`. -/
abbrev Word := BitVec 64

/-- One cell of the Program Store: an address and the Word it holds. The Word is the smallest unit that has an
address (R30, R35), so the cell holds a Word where a byte machine's would hold a byte (log entry 1). -/
abbrev Cell := Nat × Word

end Sys2Proof
end

