-- ==== Sys2Proof/Config.lean ====
section
/-! DEFINITION. What an implementation fixes (spec 00_scope.md rule R4; 92_eei_decisions.md, open parameters).
`OPMAP` stands in Decode.lean, as `opMap`. No value of this machine is left free: every open value of the spec is
a fault, a host-side refusal or one of the parameters here. -/

namespace Sys2Proof.Config

/-- `WORD_BITS` (R4, decision D1). -/
def wordBits : Nat := 64

/-- `WMIN` = -2^63, the least Word (R4). -/
def wMin : Int := -9223372036854775808

/-- `WMAX` = 2^63 - 1, the greatest Word (R4). -/
def wMax : Int := 9223372036854775807

/-- The constraint on `MAX_LEN` (R4, D2): (`MAX_LEN` - 1)² ≤ `WMAX`. `MAX_LEN` itself is OPEN, "a model argument":
every operation of the host that depends on it takes it as an argument, and a claim holds for every legal value. -/
abbrev LegalMaxLen (maxLen : Nat) : Prop := ((maxLen : Int) - 1) * ((maxLen : Int) - 1) ≤ wMax

/-- The greatest `MAX_LEN` that `LegalMaxLen` admits (log entry 9; Laws/Decode.lean proves that it is). -/
def maxLenCap : Nat := 3037000500

end Sys2Proof.Config
end

