-- ==== Sys2Proof/Syntax.lean ====
section
/-! DEFINITION. The decoded Instruction of the spec (10_state.md rule R19, 30_encoding.md rules R50, R53, R65):
an operation and, for each of its parameters, a mode and the raw Word of its slot. -/

namespace Sys2Proof

/-- The nine operations of the closed table (R53). -/
inductive Operation where
  | add | multiply | readInput | writeOutput | jumpIfTrue | jumpIfFalse | lessThan | equals | halt
  deriving DecidableEq, Repr

/-- The two addressing modes (R56): digit 0 positional, digit 1 immediate. -/
inductive Mode where
  | positional
  | immediate
  deriving DecidableEq, Repr

/-- A parameter as the decoder delivers it (R65): its mode and its raw Word, any Word at all (R60). -/
structure Param where
  mode : Mode
  raw  : Word
  deriving DecidableEq, Repr

/-- The instructions, one constructor per row of opcode_table.json. `p1` and `p2` are read parameters, `d` is the
destination parameter, always the last one (R50, R57). -/
inductive Instr where
  | add (p1 p2 d : Param)
  | multiply (p1 p2 d : Param)
  | readInput (d : Param)
  | writeOutput (p1 : Param)
  | jumpIfTrue (p1 p2 : Param)
  | jumpIfFalse (p1 p2 : Param)
  | lessThan (p1 p2 d : Param)
  | equals (p1 p2 d : Param)
  | halt
  deriving DecidableEq, Repr

/-- The operation of an instruction. -/
def Instr.operation : Instr → Operation
  | .add _ _ _ => .add
  | .multiply _ _ _ => .multiply
  | .readInput _ => .readInput
  | .writeOutput _ => .writeOutput
  | .jumpIfTrue _ _ => .jumpIfTrue
  | .jumpIfFalse _ _ => .jumpIfFalse
  | .lessThan _ _ _ => .lessThan
  | .equals _ _ _ => .equals
  | .halt => .halt

/-- The parameters of an instruction, parameter 1 first (R6, R50). -/
def Instr.params : Instr → List Param
  | .add p1 p2 d => [p1, p2, d]
  | .multiply p1 p2 d => [p1, p2, d]
  | .readInput d => [d]
  | .writeOutput p1 => [p1]
  | .jumpIfTrue p1 p2 => [p1, p2]
  | .jumpIfFalse p1 p2 => [p1, p2]
  | .lessThan p1 p2 d => [p1, p2, d]
  | .equals p1 p2 d => [p1, p2, d]
  | .halt => []

/-- The destination parameter of an instruction that writes memory (R50, R53 column "writes mem?"). -/
def Instr.dest? : Instr → Option Param
  | .add _ _ d => some d
  | .multiply _ _ d => some d
  | .readInput d => some d
  | .writeOutput _ => none
  | .jumpIfTrue _ _ => none
  | .jumpIfFalse _ _ => none
  | .lessThan _ _ d => some d
  | .equals _ _ d => some d
  | .halt => none

/-- Why a list of Words is no instruction: the classes 1 to 4 of R61, and a list that ends before the last
parameter slot (or before the instruction value). Parameters are numbered from 1 (R6). -/
inductive Reject where
  | negativeInstruction (v : Word)
  | unknownOpcode (v : Word)
  | unknownModeDigit (j : Nat)
  | writeTargetImmediate (j : Nat)
  | missingSlot (j : Nat)
  | noWord
  deriving DecidableEq, Repr

/-- What the decoder knows from the instruction value alone (R65): the operation and the modes of its parameters.
The mode of a parameter that the operation does not have is `positional` and is never used. -/
structure Head where
  op : Operation
  m1 : Mode
  m2 : Mode
  m3 : Mode
  deriving DecidableEq, Repr

end Sys2Proof
end

