-- ==== Sys2Proof/WellFormed.lean ====
section
/-! DEFINITION. The one condition an instruction meets beyond its type: a destination parameter is positional
(30_encoding.md rule R58; rule R63, "a destination operand `d` is `@a` only"). Everything else that could be wrong
with an instruction (a number of parameters, a third mode) the types of Syntax.lean already exclude. -/

namespace Sys2Proof

/-- The destination parameter, where there is one, has mode `positional` (R58). -/
def Instr.wellFormed (i : Instr) : Bool :=
  match i.dest? with
  | none => true
  | some d => d.mode == .positional

end Sys2Proof
end

