-- ==== Sys2Proof/Decode.lean ====
section
/-! DEFINITION. The decoder of spec 30_encoding.md (rules R50 to R66), pure on Words, and after it the encoder of
rule R64. The encoding is decimal: fields are decimal digits of the instruction value. -/

namespace Sys2Proof

/-- `OPMAP` (R4, R53): the opcode number of each operation. 01, 02 and 99 follow from the source; 03 to 08 the spec
takes from general knowledge (decision D3, item G1; log entry 3). This is the one place that holds them. -/
def opMap : Operation → Nat
  | .add => 1
  | .multiply => 2
  | .readInput => 3
  | .writeOutput => 4
  | .jumpIfTrue => 5
  | .jumpIfFalse => 6
  | .lessThan => 7
  | .equals => 8
  | .halt => 99

/-- The nine operations in the order of the table of R53. -/
def allOperations : List Operation :=
  [.add, .multiply, .readInput, .writeOutput, .jumpIfTrue, .jumpIfFalse, .lessThan, .equals, .halt]

/-- The lookup of an opcode number in `OPMAP`; `none` for every number outside the closed table (R54). -/
def operationOf (opc : Nat) : Option Operation :=
  allOperations.find? fun op => opMap op == opc

/-- The parameter count of an operation, "determined solely by opcode" (R50, R53). -/
def paramCount : Operation → Nat
  | .add => 3
  | .multiply => 3
  | .readInput => 1
  | .writeOutput => 1
  | .jumpIfTrue => 2
  | .jumpIfFalse => 2
  | .lessThan => 3
  | .equals => 3
  | .halt => 0

/-- Whether the operation's last parameter is a destination (R50, R53). -/
def hasDest : Operation → Bool
  | .add => true
  | .multiply => true
  | .readInput => true
  | .writeOutput => false
  | .jumpIfTrue => false
  | .jumpIfFalse => false
  | .lessThan => true
  | .equals => true
  | .halt => false

/-- `digit(v, k)`: the decimal digit of `v` at position `k`, 0 beyond its decimal length (00_scope.md §6.1). -/
def digit (v k : Nat) : Nat := v / 10 ^ k % 10

/-- The mode digit of parameter `j`, counted from 1 (R55). -/
def modeDigit (v j : Nat) : Nat := digit v (j + 1)

/-- The lowest parameter of an operation with `n` parameters whose mode digit is 2 to 9 (R56, R73). -/
def badModeParam (v n : Nat) : Option Nat :=
  [1, 2, 3].find? fun j => decide (j ≤ n) && decide (2 ≤ modeDigit v j)

/-- The mode of parameter `j` of an operation with `n` parameters; digits above parameter `n` are not examined (R59). -/
def modeAt (v n j : Nat) : Mode :=
  if j ≤ n ∧ modeDigit v j = 1 then .immediate else .positional

/-- The decoder's checks on the instruction value, in the order of R61 and R73: sign, opcode, mode digits 2 to 9
(lowest parameter first), immediate destination. -/
def decodeHead (v : Word) : Except Reject Head :=
  if v.toInt < 0 then .error (.negativeInstruction v)
  else
    match operationOf (v.toNat % 100) with
    | none => .error (.unknownOpcode v)
    | some op =>
      let n := paramCount op
      match badModeParam v.toNat n with
      | some j => .error (.unknownModeDigit j)
      | none =>
        if hasDest op ∧ modeAt v.toNat n n = .immediate then .error (.writeTargetImmediate n)
        else .ok { op := op, m1 := modeAt v.toNat n 1, m2 := modeAt v.toNat n 2, m3 := modeAt v.toNat n 3 }

/-- The instruction of a head and its raw parameter Words; a slot that the operation does not have is not used. -/
def assemble (h : Head) (p1 p2 p3 : Word) : Instr :=
  match h.op with
  | .add => .add ⟨h.m1, p1⟩ ⟨h.m2, p2⟩ ⟨h.m3, p3⟩
  | .multiply => .multiply ⟨h.m1, p1⟩ ⟨h.m2, p2⟩ ⟨h.m3, p3⟩
  | .readInput => .readInput ⟨h.m1, p1⟩
  | .writeOutput => .writeOutput ⟨h.m1, p1⟩
  | .jumpIfTrue => .jumpIfTrue ⟨h.m1, p1⟩ ⟨h.m2, p2⟩
  | .jumpIfFalse => .jumpIfFalse ⟨h.m1, p1⟩ ⟨h.m2, p2⟩
  | .lessThan => .lessThan ⟨h.m1, p1⟩ ⟨h.m2, p2⟩ ⟨h.m3, p3⟩
  | .equals => .equals ⟨h.m1, p1⟩ ⟨h.m2, p2⟩ ⟨h.m3, p3⟩
  | .halt => .halt

/-- The decoder on a list of Words (R50, R65, R73): the instruction at its front and the Words after it, or the
reason why there is none. The machine's own decode, which reads the slots through the bounds check, is
`Machine.fetchDecode`. -/
def decode : List Word → Except Reject (Instr × List Word)
  | [] => .error .noWord
  | v :: ws =>
    match decodeHead v with
    | .error r => .error r
    | .ok h =>
      if ws.length < paramCount h.op then .error (.missingSlot (ws.length + 1))
      else .ok (assemble h (ws.getD 0 0) (ws.getD 1 0) (ws.getD 2 0), ws.drop (paramCount h.op))

/-- The mode digit of a mode (R56). -/
def modeCode : Mode → Nat
  | .positional => 0
  | .immediate => 1

/-- The mode digits of a parameter list, as their contribution to the instruction value: `weight` for the first
parameter, ten times it for the next (R51, R64). -/
def modeDigits : Nat → List Param → Nat
  | _, [] => 0
  | weight, p :: ps => weight * modeCode p.mode + modeDigits (10 * weight) ps

/-- The canonical instruction value `opc + 100·m1 + 1000·m2 + 10000·m3`, all unexamined digits 0 (R51, R64). -/
def encodeHead (i : Instr) : Nat := opMap i.operation + modeDigits 100 i.params

/-- The Words of an instruction: its instruction value, then its raw parameters (R50, R64). -/
def encode (i : Instr) : List Word := BitVec.ofNat 64 (encodeHead i) :: i.params.map Param.raw

/-- The longest instruction, in Words (R50). -/
def maxInstrWords : Nat := 4

/-- The Words of an instruction given as one number `w` of `nbits` bits: Word `k` is bits `64·k` to `64·k + 63`;
every bit from `nbits` up is 0. No Word is ever split, so there is no byte order to choose (R35). -/
def tableWords (nbits w : Nat) : List Word :=
  (List.range maxInstrWords).map fun k => BitVec.ofNat 64 (w % 2 ^ nbits / 2 ^ (64 * k))

/-- The instruction that the decoder reads from those Words; `none` where it rejects them. -/
def decodeTableWord (nbits w : Nat) : Option Instr :=
  match decode (tableWords nbits w) with
  | .ok (i, _) => some i
  | .error _ => none

end Sys2Proof
end

