-- ==== Sys2Proof/Machine/State.lean ====
section
/-! DEFINITION. The architectural state, "exactly the following, and nothing else" (spec 10_state.md rule R10), the
state after reset (R22), and the reasons a step can stop. -/

namespace Sys2Proof.Machine

/-- The `status` register (R15, decision D12). Its 2-bit code is `statusCode` (HostInterface.lean). -/
inductive Status where
  | idle
  | running
  | halted
  | faulted
  deriving DecidableEq, Repr

/-- The state of the machine (R10). There is no register, flag or hidden state beside these (R17 to R20). -/
structure State where
  /-- `mem`, the Program Store (R11): the cells below `len` that hold a Word other than 0, addresses rising; an
  address below `len` that is not listed holds the Word 0 (log entry 2). -/
  mem    : List Cell
  /-- `LEN`, the number of Words of the Program Store (R11). -/
  len    : Nat
  /-- `ip`, one signed Word (R12, D14). -/
  ip     : Word
  /-- `inq`, the input not yet consumed, its head the next to be read (R13). -/
  inq    : List Word
  /-- `outq`, the output so far, its last element the newest (R14). -/
  outq   : List Word
  /-- `status` (R15). -/
  status : Status
  /-- `cause`, 3 bits (R16). -/
  cause  : BitVec 3
  /-- `fkind`, 3 bits (R16). -/
  fkind  : BitVec 3
  /-- `fip`, one Word (R16). -/
  fip    : Word
  /-- `finfo`, one Word (R16). -/
  finfo  : Word
  deriving DecidableEq, Repr

/-- The state after reset (R22, R140; `ip` = 0 is the source's, the rest decision D18). `mem` has no addressable
cell. -/
def State.reset : State where
  mem := []
  len := 0
  ip := 0
  inq := []
  outq := []
  status := .idle
  cause := 0
  fkind := 0
  fip := 0
  finfo := 0

/-- Replace `mem`. -/
def State.setMem (m : List Cell) (s : State) : State := { s with mem := m }
/-- Replace `ip`. -/
def State.setIp (w : Word) (s : State) : State := { s with ip := w }
/-- Replace `inq`. -/
def State.setInq (ws : List Word) (s : State) : State := { s with inq := ws }
/-- Replace `outq`. -/
def State.setOutq (ws : List Word) (s : State) : State := { s with outq := ws }
/-- Replace `status`. -/
def State.setStatus (st : Status) (s : State) : State := { s with status := st }

/-- Who uses an address (R31, R123). -/
inductive AccessKind where
  | fetch
  | paramFetch
  | operandRead
  | destWrite
  deriving DecidableEq, Repr

/-- The kinds of DecodeError (R122). -/
inductive DecodeKind where
  | unknownOpcode
  | negativeInstruction
  deriving DecidableEq, Repr

/-- The kinds of ModeError (R126). -/
inductive ModeKind where
  | unknownModeDigit
  | writeTargetImmediate
  deriving DecidableEq, Repr

/-- The kinds of ArithmeticOverflow (R127). -/
inductive ArithKind where
  | add
  | mul
  deriving DecidableEq, Repr

/-- What a `raise` of the spec's pseudocode carries: a fatal error that a step can take (R121 to R127). It is no stop
of the model: a step that raises one answers the FAULTED next state of R130 (`takeFault` in Ops.lean). ParseError
(R125) is the loader's and never the core's. -/
inductive FatalError where
  | decodeError (k : DecodeKind) (v : Word)
  | addressingError (k : AccessKind) (a : Word)
  | inputExhaustion
  | modeError (k : ModeKind) (j : Nat)
  | arithmeticOverflow (k : ArithKind)
  deriving DecidableEq, Repr

/-- The machine has no step: `status` is not RUNNING (R70, "In the states IDLE, HALTED and FAULTED the machine has no
step"). Raised by `step` alone, never by the meaning of an instruction. -/
inductive Fault where
  /-- `step` in IDLE: the host has not started a run. Safe: the machine does nothing until the host acts. -/
  | noStepIdle
  /-- `step` in HALTED: the run ended in success. Safe: the machine does nothing until the host resets it. -/
  | noStepHalted
  /-- `step` in FAULTED: the run ended in failure. Safe: the machine does nothing until the host resets it. -/
  | noStepFaulted
  deriving DecidableEq, Repr

/-- The instructions without a meaning. -/
inductive Refusal where
  /-- Raised by `exec` for an instruction whose meaning is not written; none is left. Safe. -/
  | notModelled (mnemonic : String)
  deriving DecidableEq, Repr

end Sys2Proof.Machine
end

