-- ==== Sys2Proof/Machine/Memory.lean ====
section
/-! DEFINITION. The Program Store as plain data: cells with rising addresses, no cell that holds 0 (log entry 2). The
bounds check against `LEN` is Ops.lean's. -/

namespace Sys2Proof.Machine

/-- What an address without a cell reads as. -/
def unlistedWord : Word := 0

/-- The Word at an address. -/
def Memory.read : List Cell → Nat → Word
  | [], _ => unlistedWord
  | (b, w) :: rest, a => if a = b then w else Memory.read rest a

/-- Put a Word at an address, keeping the canonical form. -/
def Memory.write : List Cell → Nat → Word → List Cell
  | [], a, w => if w = unlistedWord then [] else [(a, w)]
  | (b, x) :: rest, a, w =>
    if a < b then (if w = unlistedWord then (b, x) :: rest else (a, w) :: (b, x) :: rest)
    else if a = b then (if w = unlistedWord then rest else (a, w) :: rest)
    else (b, x) :: Memory.write rest a w

/-- The canonical form: addresses strictly rising, no cell equal to what an unlisted address reads as. -/
def Memory.wf : List Cell → Bool
  | [] => true
  | (a, w) :: rest => w != unlistedWord && rest.all (fun c => decide (a < c.1)) && Memory.wf rest

/-- Every cell lies below `LEN` (R11: the addresses are 0 to `LEN` - 1). -/
def Memory.below (m : List Cell) (len : Nat) : Bool := m.all fun c => decide (c.1 < len)

/-- The cells of an image whose first Word stands at address `k`. -/
def Memory.ofImage : List Word → Nat → List Cell
  | [], _ => []
  | w :: ws, k =>
    if w = unlistedWord then Memory.ofImage ws (k + 1) else (k, w) :: Memory.ofImage ws (k + 1)

/-- The Words at addresses `k` to `k + n - 1`. -/
def Memory.words (m : List Cell) : Nat → Nat → List Word
  | _, 0 => []
  | k, n + 1 => Memory.read m k :: Memory.words m (k + 1) n

end Sys2Proof.Machine
end

