-- ==== Sys2Proof/Machine/Ops.lean ====
section
/-! DEFINITION. The named operations every instruction is made of: the access primitives of spec 20_memory.md (R31
to R33), taking a fault (60_exceptions.md R121 to R130), the advance (R78) and the destination store (R79). There is
no return from a fault to stand beside its taking (R131). -/

namespace Sys2Proof.Machine

/-- `InBounds(a)`: 0 ≤ `a` < `LEN`, compared as signed integers (R33). -/
def inBounds (s : State) (a : Word) : Bool :=
  decide (0 ≤ a.toInt) && decide (a.toInt < (s.len : Int))

/-- The Word at address `a`, whatever `LEN` is: the unchecked read behind `memRead` and the term in which claims speak
of memory. -/
def State.wordAt (s : State) (a : Word) : Word := Memory.read s.mem a.toNat

/-- `MemRead(a, kind)` (R31). -/
def memRead (kind : AccessKind) (a : Word) (s : State) : Except FatalError Word :=
  if inBounds s a then .ok (s.wordAt a) else .error (.addressingError kind a)

/-- `MemWrite(a, v)` (R32). -/
def memWrite (a v : Word) (s : State) : Except FatalError State :=
  if inBounds s a then .ok (s.setMem (Memory.write s.mem a.toNat v))
  else .error (.addressingError .destWrite a)

/-- The cause code of a fatal error (R121). -/
def causeCode : FatalError → BitVec 3
  | .decodeError _ _ => 1
  | .addressingError _ _ => 2
  | .inputExhaustion => 3
  | .modeError _ _ => 5
  | .arithmeticOverflow _ => 6

/-- The kind code within the cause (R122, R123, R124, R126, R127). -/
def kindCode : FatalError → BitVec 3
  | .decodeError .unknownOpcode _ => 0
  | .decodeError .negativeInstruction _ => 1
  | .addressingError .fetch _ => 0
  | .addressingError .paramFetch _ => 1
  | .addressingError .operandRead _ => 2
  | .addressingError .destWrite _ => 3
  | .inputExhaustion => 0
  | .modeError .unknownModeDigit _ => 0
  | .modeError .writeTargetImmediate _ => 1
  | .arithmeticOverflow .add => 0
  | .arithmeticOverflow .mul => 1

/-- The information Word of a fatal error, 0 where none is given (R128). -/
def infoWord : FatalError → Word
  | .decodeError _ v => v
  | .addressingError _ a => a
  | .inputExhaustion => 0
  | .modeError _ j => BitVec.ofNat 64 j
  | .arithmeticOverflow _ => 0

/-- Fault entry, the meaning of `raise F(kind, info)` (R130): `status` and the four fault registers are written,
nothing else changes (R120). -/
def takeFault (e : FatalError) (s : State) : State :=
  { s with status := .faulted, cause := causeCode e, fkind := kindCode e, fip := s.ip, finfo := infoWord e }

/-- How an instruction's effect ends a step: with its own next state, or with the fault entry from the state the step
began in (R71, R120). -/
def complete (s : State) : Except FatalError State → Host.Outcome State Fault Refusal
  | .ok t => .next t
  | .error e => .next (takeFault e s)

/-- The default advance past an instruction with `n` parameters (R78). It is not checked against `LEN`. -/
def advance (n : Nat) (s : State) : State := s.setIp (s.ip + BitVec.ofNat 64 (1 + n))

/-- `StoreDest(r)` at the destination address (R79). -/
def storeDest (dest r : Word) (s : State) : Except FatalError State := memWrite dest r s

end Sys2Proof.Machine
end

