-- ==== Sys2Proof/Machine/Operands.lean ====
section
/-! DEFINITION. Operand resolution (spec 40_cycle_and_operands.md rules R74 to R76) and the two shapes of instruction
that resolve two read parameters. -/

namespace Sys2Proof.Machine

/-- `Val(j)`, the value of a read parameter (R74): immediate, the raw Word; positional, the Word at that address. -/
def val (p : Param) (s : State) : Except FatalError Word :=
  match p.mode with
  | .immediate => .ok p.raw
  | .positional => memRead .operandRead p.raw s

/-- The destination address: the raw parameter as it stands, never dereferenced (R75). -/
def destAddr (d : Param) : Word := d.raw

/-- Phases 3 to 5 of an instruction of format F3RRW (R50, R71): resolve parameter 1, then 2 (R76), compute, store,
advance by 4. -/
def binaryStore (f : Word → Word → Except FatalError Word) (p1 p2 d : Param) (s : State) : Except FatalError State := do
  let a ← val p1 s
  let b ← val p2 s
  let r ← f a b
  let t ← storeDest (destAddr d) r s
  return advance 3 t

/-- Phases 3 to 5 of a conditional jump, format F2RR: both parameters are resolved, taken or not (R76); a taken jump
latches its target unchecked, otherwise the machine advances by 3 (R78, R100, R101). -/
def conditionalJump (taken : Word → Bool) (p1 p2 : Param) (s : State) : Except FatalError State := do
  let c ← val p1 s
  let t ← val p2 s
  return if taken c then s.setIp t else advance 2 s

end Sys2Proof.Machine
end

