-- ==== Sys2Proof/Machine/Flags.lean ====
section
/-! DEFINITION. `execution_engine_alu` (spec 40_cycle_and_operands.md rule R82). The machine has no flags (10_state.md
rule R18): the overflow output of the ALU is no flag, it makes the step fault (R92). -/

namespace Sys2Proof.Machine

/-- The operation selector of the ALU (R82). -/
inductive AluOp where
  | add
  | mul
  | lt
  | eq
  | nz
  deriving DecidableEq, Repr

/-- The two outputs of the ALU. The result is the exact integer of the table of R82. -/
structure AluOut where
  result   : Int
  overflow : Bool
  deriving DecidableEq, Repr

/-- Whether an integer lies outside `WMIN`..`WMAX` (R92). -/
def outOfRange (r : Int) : Bool := decide (r < Config.wMin) || decide (Config.wMax < r)

/-- 1 or 0 (R82, R105, R106). -/
def truthValue (b : Bool) : Int := if b then 1 else 0

/-- The ALU, a pure function of two Words and a selector (R82); comparisons are signed. -/
def alu (op : AluOp) (a b : Word) : AluOut :=
  match op with
  | .add => { result := a.toInt + b.toInt, overflow := outOfRange (a.toInt + b.toInt) }
  | .mul => { result := a.toInt * b.toInt, overflow := outOfRange (a.toInt * b.toInt) }
  | .lt => { result := truthValue (decide (a.toInt < b.toInt)), overflow := false }
  | .eq => { result := truthValue (decide (a = b)), overflow := false }
  | .nz => { result := truthValue (decide (a ≠ 0)), overflow := false }

/-- The ALU's result as a Word. -/
def aluWord (op : AluOp) (a b : Word) : Word := BitVec.ofInt 64 (alu op a b).result

/-- An arithmetic operation with its overflow check: an unrepresentable result is a fault, never a Word (R92, D8). -/
def aluChecked (op : AluOp) (kind : ArithKind) (a b : Word) : Except FatalError Word :=
  if (alu op a b).overflow then .error (.arithmeticOverflow kind) else .ok (aluWord op a b)

/-- The jump condition: the NZ output of the ALU (R82). -/
def nonZero (c : Word) : Bool := decide ((alu .nz c 0).result = 1)

end Sys2Proof.Machine
end

