-- ==== Sys2Proof/Machine/Arithmetic.lean ====
section
/-! DEFINITION. add and multiply (spec 41_arithmetic.md rules R90 to R92). -/

namespace Sys2Proof.Machine

/-- add (R90): store `value1 + value2` at the destination address. -/
def execAdd (p1 p2 d : Param) (s : State) : Host.Outcome State Fault Refusal :=
  complete s (binaryStore (aluChecked .add .add) p1 p2 d s)

/-- multiply (R91): store `value1 × value2` at the destination address. -/
def execMultiply (p1 p2 d : Param) (s : State) : Host.Outcome State Fault Refusal :=
  complete s (binaryStore (aluChecked .mul .mul) p1 p2 d s)

end Sys2Proof.Machine
end

