-- ==== Sys2Proof/Machine/Compare.lean ====
section
/-! DEFINITION. less-than and equals (spec 44_compare.md rules R105, R106). -/

namespace Sys2Proof.Machine

/-- less-than (R105): store 1 if `value1 < value2` (signed), else 0. -/
def execLessThan (p1 p2 d : Param) (s : State) : Host.Outcome State Fault Refusal :=
  complete s (binaryStore (fun a b => .ok (aluWord .lt a b)) p1 p2 d s)

/-- equals (R106): store 1 if `value1 = value2`, else 0. -/
def execEquals (p1 p2 d : Param) (s : State) : Host.Outcome State Fault Refusal :=
  complete s (binaryStore (fun a b => .ok (aluWord .eq a b)) p1 p2 d s)

end Sys2Proof.Machine
end

