-- ==== Sys2Proof/Machine/Halt.lean ====
section
/-! DEFINITION. halt (spec 45_halt.md rule R110). -/

namespace Sys2Proof.Machine

/-- halt (R110): `status` becomes HALTED and nothing else changes; `ip` keeps the address of the halt (D13). -/
def execHalt (s : State) : Host.Outcome State Fault Refusal :=
  complete s (.ok (s.setStatus .halted))

end Sys2Proof.Machine
end

