-- ==== Sys2Proof/Machine/InputOutput.lean ====
section
/-! DEFINITION. read-input and write-output (spec 42_io.md rules R95, R96). -/

namespace Sys2Proof.Machine

/-- read-input (R95): the empty queue is tested first, then the destination; only then is the head stored and
removed. -/
def execReadInput (d : Param) (s : State) : Host.Outcome State Fault Refusal :=
  complete s <|
    match s.inq with
    | [] => .error .inputExhaustion
    | x :: rest => do
      let t ← memWrite (destAddr d) x s
      return advance 1 (t.setInq rest)

/-- write-output (R96): append the resolved value; the output sequence has no capacity limit (D17). -/
def execWriteOutput (p1 : Param) (s : State) : Host.Outcome State Fault Refusal :=
  complete s do
    let a ← val p1 s
    return advance 1 (s.setOutq (s.outq ++ [a]))

end Sys2Proof.Machine
end

