-- ==== Sys2Proof/Machine/Jumps.lean ====
section
/-! DEFINITION. jump-if-true and jump-if-false (spec 43_jumps.md rules R100, R101). -/

namespace Sys2Proof.Machine

/-- jump-if-true (R100): taken when the condition is any Word other than 0. -/
def execJumpIfTrue (p1 p2 : Param) (s : State) : Host.Outcome State Fault Refusal :=
  complete s (conditionalJump nonZero p1 p2 s)

/-- jump-if-false (R101): taken when the condition is the Word 0. -/
def execJumpIfFalse (p1 p2 : Param) (s : State) : Host.Outcome State Fault Refusal :=
  complete s (conditionalJump (fun c => !nonZero c) p1 p2 s)

end Sys2Proof.Machine
end

