-- ==== Sys2Proof/Machine/Dispatch.lean ====
section
/-! DEFINITION. Phase 4's dispatch (spec 40_cycle_and_operands.md rule R77): "a closed, fixed integer-to-behavior table
with one case per opcode". -/

namespace Sys2Proof.Machine

def exec (i : Instr) (s : State) : Host.Outcome State Fault Refusal :=
  match i with
  | .add p1 p2 d => Sys2Proof.Machine.execAdd p1 p2 d s
  | .multiply p1 p2 d => Sys2Proof.Machine.execMultiply p1 p2 d s
  | .readInput d => Sys2Proof.Machine.execReadInput d s
  | .writeOutput p1 => Sys2Proof.Machine.execWriteOutput p1 s
  | .jumpIfTrue p1 p2 => Sys2Proof.Machine.execJumpIfTrue p1 p2 s
  | .jumpIfFalse p1 p2 => Sys2Proof.Machine.execJumpIfFalse p1 p2 s
  | .lessThan p1 p2 d => Sys2Proof.Machine.execLessThan p1 p2 d s
  | .equals p1 p2 d => Sys2Proof.Machine.execEquals p1 p2 d s
  | .halt => Sys2Proof.Machine.execHalt s

end Sys2Proof.Machine
end

