-- ==== Sys2Proof/Machine/Fetch.lean ====
section
/-! DEFINITION. Phases 1 and 2 of the step (spec 40_cycle_and_operands.md rules R72, R73): the bounds check of `ip`
and the decode procedure, which reads `mem` and `ip` and writes nothing. -/

namespace Sys2Proof.Machine

/-- The fatal error of an instruction value or slot that the decoder rejects (R73, R122, R126). `missingSlot` and
`noWord` name the address of the missing Word; the machine's own decode meets those cases in its bounds checks
(R31), before the decoder could report them. -/
def rejectError (ip : Word) : Reject → FatalError
  | .negativeInstruction v => .decodeError .negativeInstruction v
  | .unknownOpcode v => .decodeError .unknownOpcode v
  | .unknownModeDigit j => .modeError .unknownModeDigit j
  | .writeTargetImmediate j => .modeError .writeTargetImmediate j
  | .missingSlot j => .addressingError .paramFetch (ip + BitVec.ofNat 64 j)
  | .noWord => .addressingError .fetch ip

/-- Fetch the raw parameter `j` of an instruction with `n` parameters (R73); a slot that the instruction does not have
is not fetched (R81). -/
def fetchSlot (n j : Nat) (s : State) : Except FatalError Word :=
  if j ≤ n then memRead .paramFetch (s.ip + BitVec.ofNat 64 j) s else .ok 0

/-- The instruction at `ip`, or the fault of phase 1 or 2 (R72, R73): instruction value, opcode, modes, raw
parameters in ascending order. -/
def fetchDecode (s : State) : Except FatalError Instr := do
  let v ← memRead .fetch s.ip s
  match decodeHead v with
  | .error r => .error (rejectError s.ip r)
  | .ok h =>
    let n := paramCount h.op
    let p1 ← fetchSlot n 1 s
    let p2 ← fetchSlot n 2 s
    let p3 ← fetchSlot n 3 s
    return assemble h p1 p2 p3

/-- Where the next instruction can be fetched: `ip` itself where it can be in bounds with a whole instruction behind
it, else address 0 (for `State.withFetchWord`). -/
def fetchBase (s : State) : Word :=
  if 0 ≤ s.ip.toInt ∧ s.ip.toNat + maxInstrWords ≤ Config.maxLenCap then s.ip else 0

/-- Store Words at consecutive addresses. -/
def storeWords : List Cell → Nat → List Word → List Cell
  | m, _, [] => m
  | m, k, w :: ws => storeWords (Memory.write m k w) (k + 1) ws

end Sys2Proof.Machine
end

