-- ==== Sys2Proof/Machine/Step.lean ====
section
/-! DEFINITION. The step (spec 40_cycle_and_operands.md rules R70, R71). -/

namespace Sys2Proof.Machine

/-- One fetch-decode-execute cycle (R71): it executes exactly one instruction or takes exactly one fault. Only a
RUNNING machine steps (R70). -/
def step (s : State) : Host.Outcome State Fault Refusal :=
  match s.status with
  | .idle => .fault .noStepIdle
  | .halted => .fault .noStepHalted
  | .faulted => .fault .noStepFaulted
  | .running =>
    match fetchDecode s with
    | .error e => .next (takeFault e s)
    | .ok i => exec i s

/-- `s` made ready to run the instruction of the Words of `w` (`tableWords`) as its very next step: the Words are
stored at `fetchBase s`, `len` reaches behind them, `ip` points to them and `status` is RUNNING. It stands for the
host's LOAD and START (R141; log entry 5). -/
def State.withFetchWord (s : State) (nbits w : Nat) : State :=
  { s with
    mem := storeWords s.mem (fetchBase s).toNat (tableWords nbits w)
    len := max s.len ((fetchBase s).toNat + maxInstrWords)
    ip := fetchBase s
    status := .running }

end Sys2Proof.Machine
end

