-- ==== Sys2Proof/Machine/HostInterface.lean ====
section
/-! DEFINITION. What the host can do to the machine and read from it (spec 70_reset_and_hazards.md rules R140 to R146,
10_state.md rules R15, R16, R24). The host acts between steps, never inside one (R149). -/

namespace Sys2Proof.Machine

/-- The 2-bit code of `status` (R15). -/
def statusCode : Status → BitVec 2
  | .idle => 0
  | .running => 1
  | .halted => 2
  | .faulted => 3

/-- RESET (R140): in any state. -/
def hostReset (_ : State) : State := State.reset

/-- LOAD(image) (R141): in IDLE, for an image of at most `MAX_LEN` Words; otherwise no effect. -/
def hostLoad (maxLen : Nat) (image : List Word) (s : State) : State :=
  if s.status = .idle ∧ image.length ≤ maxLen then
    { s with mem := Memory.ofImage image 0, len := image.length }
  else s

/-- PATCH(a, w) (R141): in IDLE, for an address in bounds, which there is only after a LOAD; otherwise no effect. -/
def hostPatch (a w : Word) (s : State) : State :=
  if s.status = .idle ∧ inBounds s a then s.setMem (Memory.write s.mem a.toNat w) else s

/-- SUPPLY(ws) (R141): in IDLE, the whole input sequence at once. -/
def hostSupply (ws : List Word) (s : State) : State :=
  if s.status = .idle then s.setInq ws else s

/-- START (R142): in IDLE. -/
def hostStart (s : State) : State :=
  if s.status = .idle then s.setStatus .running else s

/-- The host's operations that act on the state (R141). -/
inductive HostOp where
  | reset
  | load (image : List Word)
  | patch (a w : Word)
  | supply (ws : List Word)
  | start
  deriving DecidableEq, Repr

/-- The effect of a host operation on a machine of capacity `maxLen` (R141). "Anything else has no effect." -/
def hostApply (maxLen : Nat) (op : HostOp) (s : State) : State :=
  match op with
  | .reset => hostReset s
  | .load image => hostLoad maxLen image s
  | .patch a w => hostPatch a w s
  | .supply ws => hostSupply ws s
  | .start => hostStart s

/-- A sequence of host operations, the first of the list first. -/
def hostApplyAll (maxLen : Nat) (ops : List HostOp) (s : State) : State :=
  ops.foldl (fun t op => hostApply maxLen op t) s

/-- The patches of a launch as host operations. -/
def patchOps (patches : List (Word × Word)) : List HostOp := patches.map fun p => .patch p.1 p.2

/-- The boot sequence of R144: RESET, LOAD, PATCHes, SUPPLY, START. -/
def launchOps (image : List Word) (patches : List (Word × Word)) (input : List Word) : List HostOp :=
  .reset :: .load image :: (patchOps patches ++ [.supply input, .start])

/-- The state a launch leaves, whatever state the machine was in. -/
def launch (maxLen : Nat) (image : List Word) (patches : List (Word × Word)) (input : List Word) (s : State) : State :=
  hostApplyAll maxLen (launchOps image patches input) s

/-- The host's read of `status`, in any state (R141). -/
def readStatus (s : State) : BitVec 2 := statusCode s.status

/-- The host's read of `outq`, in HALTED only (R141, D17). -/
def readOutq (s : State) : Option (List Word) :=
  if s.status = .halted then some s.outq else none

/-- The host's read of `mem[a]`, in HALTED and in bounds only (R141, D22). -/
def readMem (a : Word) (s : State) : Option Word :=
  if s.status = .halted ∧ inBounds s a then some (s.wordAt a) else none

/-- The four fault registers as the host reads them (R16). -/
structure FaultRecord where
  cause : BitVec 3
  fkind : BitVec 3
  fip   : Word
  finfo : Word
  deriving DecidableEq, Repr

/-- The host's read of the fault registers, in FAULTED only (R16, R141). -/
def readFault (s : State) : Option FaultRecord :=
  if s.status = .faulted then some { cause := s.cause, fkind := s.fkind, fip := s.fip, finfo := s.finfo } else none

/-- The result of a run as the host observes it (R24). -/
inductive RunResult where
  | success (out : List Word) (finalMem : List Word)
  | failure (record : FaultRecord)
  deriving DecidableEq, Repr

/-- The result, a function of the final state; `none` while there is no final state (R24, R146). -/
def runResult (s : State) : Option RunResult :=
  match s.status with
  | .idle => none
  | .running => none
  | .halted => some (.success s.outq (Memory.words s.mem 0 s.len))
  | .faulted => some (.failure { cause := s.cause, fkind := s.fkind, fip := s.fip, finfo := s.finfo })

end Sys2Proof.Machine
end

