-- ==== Sys2Proof/Machine/Loader.lean ====
section
/-! DEFINITION. The host-side construction of an image from text (spec 70_reset_and_hazards.md rule R150, decision
D23; 30_encoding.md rule R63). It is host software and no part of the core. The text is a list of characters. -/

namespace Sys2Proof.Machine

/-- The one error of construction, ParseError (R125). -/
inductive LoaderError where
  | parseError
  deriving DecidableEq, Repr

/-- The cause code 4 reserved for ParseError in the host's numbering; it never stands in `cause` (R121, R125). -/
def parseErrorCode : BitVec 3 := 4

/-- Drop white space at the front (log entry 10 says which characters are white space). -/
def trimFront (text : List Char) : List Char := text.dropWhile Char.isWhitespace

/-- Trim white space at both ends of the whole text (R150). -/
def trimText (text : List Char) : List Char := (trimFront (trimFront text).reverse).reverse

/-- Split at every comma; the empty text has one empty piece (R150). -/
def splitCommas : List Char → List (List Char)
  | [] => [[]]
  | c :: cs =>
    if c = ',' then [] :: splitCommas cs
    else
      match splitCommas cs with
      | [] => [[c]]
      | piece :: pieces => (c :: piece) :: pieces

/-- The value of a decimal digit. -/
def digitValue (c : Char) : Nat := c.toNat - 48

/-- The value of a list of decimal digits, most significant first. -/
def digitsValue (ds : List Char) : Nat := ds.foldl (fun acc c => 10 * acc + digitValue c) 0

/-- One or more decimal digits and nothing else: `[0-9]+` (R150). -/
def isDigits (ds : List Char) : Bool := !ds.isEmpty && ds.all Char.isDigit

/-- The integer that a piece denotes, if it matches `-?[0-9]+` (R150). -/
def pieceValue : List Char → Option Int
  | [] => none
  | c :: cs =>
    if c = '-' then (if isDigits cs then some (-(digitsValue cs : Int)) else none)
    else (if isDigits (c :: cs) then some (digitsValue (c :: cs) : Int) else none)

/-- The Word of a piece, if it denotes a value in `WMIN`..`WMAX` (R150). -/
def parsePiece (piece : List Char) : Option Word :=
  match pieceValue piece with
  | none => none
  | some z => if Config.wMin ≤ z ∧ z ≤ Config.wMax then some (BitVec.ofInt 64 z) else none

/-- The Words of the pieces, if every piece has one. -/
def parsePieces : List (List Char) → Option (List Word)
  | [] => some []
  | piece :: pieces =>
    match parsePiece piece, parsePieces pieces with
    | some w, some ws => some (w :: ws)
    | _, _ => none

/-- The image of a text, or ParseError (R150). The number of pieces must not exceed `MAX_LEN`. -/
def parseImage (maxLen : Nat) (text : List Char) : Except LoaderError (List Word) :=
  match parsePieces (splitCommas (trimText text)) with
  | none => .error .parseError
  | some ws => if ws.length ≤ maxLen then .ok ws else .error .parseError

end Sys2Proof.Machine
end

