-- ==== Sys2Proof/Machine/Signals.lean ====
section
/-! DEFINITION. The signal-level form of the host interface that spec 70_reset_and_hazards.md rule R145 gives as one
possible form (D15; "a model need not represent it"): what one rising edge of `clk` does with the sampled inputs, and
the outputs. How many edges a step takes is unspecified (R148), so the step itself is no part of `clockInputs`. -/

namespace Sys2Proof.Machine

/-- The inputs sampled at one rising edge (R145). -/
structure Pins where
  rst    : Bool
  ldWe   : Bool
  ldAddr : Nat
  ldData : Word
  inWe   : Bool
  inData : Word
  start  : Bool
  deriving DecidableEq, Repr

/-- No input active. -/
def Pins.quiet : Pins where
  rst := false
  ldWe := false
  ldAddr := 0
  ldData := 0
  inWe := false
  inData := 0
  start := false

/-- A write to `mem[ld_addr]` in IDLE, for `ld_addr` ≤ `LEN`; at `LEN` the store grows by one Word, up to the capacity
`maxLen` (R145, R11). Every other write is refused. -/
def loadWrite (maxLen addr : Nat) (w : Word) (s : State) : State :=
  if s.status = .idle ∧ addr < s.len then s.setMem (Memory.write s.mem addr w)
  else if s.status = .idle ∧ addr = s.len ∧ s.len < maxLen then
    { s with mem := Memory.write s.mem addr w, len := s.len + 1 }
  else s

/-- Append one Word to `inq` in IDLE (R145). -/
def inputWrite (w : Word) (s : State) : State :=
  if s.status = .idle then s.setInq (s.inq ++ [w]) else s

/-- What the sampled inputs do at one edge. The writes and the start act on different parts of the state and are
allowed by the status before the edge, so their order does not matter; reset wins over them (log entry 11). -/
def clockInputs (maxLen : Nat) (p : Pins) (s : State) : State :=
  if p.rst then hostReset s
  else
    let s1 := if p.ldWe then loadWrite maxLen p.ldAddr p.ldData s else s
    let s2 := if p.inWe then inputWrite p.inData s1 else s1
    if p.start then hostStart s2 else s2

/-- LOAD as ascending writes from address `k` (R145). -/
def loadWrites (maxLen : Nat) : Nat → List Word → State → State
  | _, [], s => s
  | k, w :: ws, s => loadWrites maxLen (k + 1) ws (loadWrite maxLen k w s)

/-- SUPPLY as a sequence of writes (R145). -/
def inputWrites : List Word → State → State
  | [], s => s
  | w :: ws, s => inputWrites ws (inputWrite w s)

/-- `out_count`, valid in HALTED (R145). -/
def outCount (s : State) : Option Nat :=
  if s.status = .halted then some s.outq.length else none

/-- `out_rdata` for `out_raddr` = `k`, in HALTED (R145). -/
def outRdata (k : Nat) (s : State) : Option Word :=
  if s.status = .halted then s.outq[k]? else none

/-- `mem_rdata` for `mem_raddr` = `k`, in HALTED and below `LEN` (R145). -/
def memRdata (k : Nat) (s : State) : Option Word :=
  if s.status = .halted ∧ k < s.len then some (Memory.read s.mem k) else none

end Sys2Proof.Machine
end

