-- ==== Sys2Proof/Safety.lean ====
section
/-! DEFINITION. The terms claims are stated in: operands without faults, the invariant, runs, and the spec's own
tables of opcodes and of fault priority, written apart from the decoder and the meanings so that a claim can compare
the two. -/

namespace Sys2Proof.Machine

/-- A read parameter that resolves without a fault: immediate, or positional and in bounds (R74). -/
def Readable (s : State) (p : Param) : Prop := p.mode = .immediate ∨ inBounds s p.raw = true

/-- The value of a readable parameter (R74): the raw Word, or the Word it addresses. -/
def operandWord (s : State) (p : Param) : Word :=
  match p.mode with
  | .immediate => p.raw
  | .positional => s.wordAt p.raw

/-- An integer inside the Word range (R92). -/
def InWordRange (z : Int) : Prop := Config.wMin ≤ z ∧ z ≤ Config.wMax

/-- The next state of an instruction that stores `r` at its destination and advances by 4, written as an update. -/
def stored (s : State) (d : Param) (r : Word) : State :=
  { s with mem := Memory.write s.mem d.raw.toNat r, ip := s.ip + 4 }

/-- The Word that an instruction with a destination stores there, from the operands before the step (R90, R91, R95,
R105, R106); 0 for an instruction without one, where it is not used. -/
def resultWord (i : Instr) (s : State) : Word :=
  match i with
  | .add p1 p2 _ => BitVec.ofInt 64 ((operandWord s p1).toInt + (operandWord s p2).toInt)
  | .multiply p1 p2 _ => BitVec.ofInt 64 ((operandWord s p1).toInt * (operandWord s p2).toInt)
  | .readInput _ => s.inq.headD 0
  | .writeOutput _ => 0
  | .jumpIfTrue _ _ => 0
  | .jumpIfFalse _ _ => 0
  | .lessThan p1 p2 _ => if (operandWord s p1).toInt < (operandWord s p2).toInt then 1 else 0
  | .equals p1 p2 _ => if operandWord s p1 = operandWord s p2 then 1 else 0
  | .halt => 0

/-- The fault entry written out as an update: the four registers and `status`, nothing else (R130). -/
def faulted (s : State) (cause fkind : BitVec 3) (finfo : Word) : State :=
  { s with status := .faulted, cause := cause, fkind := fkind, fip := s.ip, finfo := finfo }

/-- `status` and the fault registers are as before. -/
structure SameStatus (s t : State) : Prop where
  status : t.status = s.status
  cause : t.cause = s.cause
  fkind : t.fkind = s.fkind
  fip : t.fip = s.fip
  finfo : t.finfo = s.finfo

/-- Every address but `a` reads as before. -/
def SameMemoryBut (a : Nat) (s t : State) : Prop := ∀ b, b ≠ a → Memory.read t.mem b = Memory.read s.mem b

/-- Every address reads as before. -/
def SameMemory (s t : State) : Prop := ∀ b, Memory.read t.mem b = Memory.read s.mem b

/-- The (cause, kind) pairs that a fault can record (R121 to R127). -/
def legalCodes : List (BitVec 3 × BitVec 3) :=
  [(1, 0), (1, 1), (2, 0), (2, 1), (2, 2), (2, 3), (3, 0), (5, 0), (5, 1), (6, 0), (6, 1)]

/-- What every reachable state of a machine of capacity `maxLen` satisfies. -/
structure Inv (maxLen : Nat) (s : State) : Prop where
  /-- Memory is canonical. -/
  memWf : Memory.wf s.mem = true
  /-- There is no cell at or above `LEN` (R11). -/
  memBelow : Memory.below s.mem s.len = true
  /-- `LEN` ≤ `MAX_LEN` (R10). -/
  lenLe : s.len ≤ maxLen
  /-- Before launch `ip` is 0 and no output exists (R22). -/
  idleFresh : s.status = .idle → s.ip = 0 ∧ s.outq = []
  /-- Without a fault the fault registers are 0 (R22, R142). -/
  noRecord : s.status ≠ .faulted → s.cause = 0 ∧ s.fkind = 0 ∧ s.fip = 0 ∧ s.finfo = 0
  /-- With one they hold a code of the tables and the `ip` of the faulting step (R16, R128). -/
  record : s.status = .faulted → (s.cause, s.fkind) ∈ legalCodes ∧ s.fip = s.ip

/-- The Words from `ip` to the end of the Program Store: what the decoder has before it. -/
def codeAt (s : State) : List Word := Memory.words s.mem s.ip.toNat (s.len - s.ip.toNat)

/-- The parameter count by opcode number, from the table of R53; 0 for halt and for the numbers outside the table. -/
def specParamCount (opc : Nat) : Nat :=
  if opc ∈ [1, 2, 7, 8] then 3 else if opc ∈ [5, 6] then 2 else if opc ∈ [3, 4] then 1 else 0

/-- The number of read parameters, by opcode number (`nread` of R71). -/
def specReadCount (opc : Nat) : Nat :=
  if opc ∈ [1, 2, 5, 6, 7, 8] then 2 else if opc = 4 then 1 else 0

/-- The opcodes with a destination parameter, by number, from the table of R53. -/
def specHasDest (opc : Nat) : Bool := decide (opc ∈ [1, 2, 3, 7, 8])

/-- The opcodes of the closed table, by number (R53, R54). -/
def specKnown (opc : Nat) : Bool := decide (opc ∈ [1, 2, 3, 4, 5, 6, 7, 8, 99])

/-- The operation of each opcode number, from the table of R53. -/
def specOperation (opc : Nat) : Option Operation :=
  match opc with
  | 1 => some .add
  | 2 => some .multiply
  | 3 => some .readInput
  | 4 => some .writeOutput
  | 5 => some .jumpIfTrue
  | 6 => some .jumpIfFalse
  | 7 => some .lessThan
  | 8 => some .equals
  | 99 => some .halt
  | _ => none

/-- The mode digit of parameter `j` as R55 writes it. -/
def specModeDigit (v j : Nat) : Nat := v / 10 ^ (j + 1) % 10

/-- The mode of parameter `j`, for a digit 0 or 1 (R56). -/
def specMode (v j : Nat) : Mode := if specModeDigit v j = 1 then .immediate else .positional

/-- The opcode of the instruction value at `ip`. -/
def specOpcode (s : State) : Nat := (s.wordAt s.ip).toNat % 100

/-- Raw parameter `j` of the instruction at `ip`. -/
def specRaw (s : State) (j : Nat) : Word := s.wordAt (s.ip + BitVec.ofNat 64 j)

/-- The value of read parameter `j` of the instruction at `ip`, whether or not it is in bounds. -/
def specVal (s : State) (j : Nat) : Word :=
  if specModeDigit (s.wordAt s.ip).toNat j = 1 then specRaw s j else s.wordAt (specRaw s j)

/-- Raw parameter `j` is positional, belongs to a read parameter and lies out of bounds. -/
def specBadOperand (s : State) (j : Nat) : Bool :=
  decide (j ≤ specReadCount (specOpcode s)) && decide (specModeDigit (s.wordAt s.ip).toNat j = 0)
    && !inBounds s (specRaw s j)

/-- The priority list of R129: every condition on which a step faults, each read off the state as it stands, beside
the fault it reports, the earlier the higher. -/
def faultPriority (s : State) : List (Bool × FatalError) :=
  let v := s.wordAt s.ip
  let u := v.toNat
  let opc := specOpcode s
  let n := specParamCount opc
  let slot (j : Nat) : Word := s.ip + BitVec.ofNat 64 j
  [ (!inBounds s s.ip, .addressingError .fetch s.ip),
    (decide (v.toInt < 0), .decodeError .negativeInstruction v),
    (!specKnown opc, .decodeError .unknownOpcode v),
    (decide (1 ≤ n) && decide (2 ≤ specModeDigit u 1), .modeError .unknownModeDigit 1),
    (decide (2 ≤ n) && decide (2 ≤ specModeDigit u 2), .modeError .unknownModeDigit 2),
    (decide (3 ≤ n) && decide (2 ≤ specModeDigit u 3), .modeError .unknownModeDigit 3),
    (specHasDest opc && decide (specModeDigit u n = 1), .modeError .writeTargetImmediate n),
    (decide (1 ≤ n) && !inBounds s (slot 1), .addressingError .paramFetch (slot 1)),
    (decide (2 ≤ n) && !inBounds s (slot 2), .addressingError .paramFetch (slot 2)),
    (decide (3 ≤ n) && !inBounds s (slot 3), .addressingError .paramFetch (slot 3)),
    (specBadOperand s 1, .addressingError .operandRead (specRaw s 1)),
    (specBadOperand s 2, .addressingError .operandRead (specRaw s 2)),
    (decide (opc = 1) && outOfRange ((specVal s 1).toInt + (specVal s 2).toInt), .arithmeticOverflow .add),
    (decide (opc = 2) && outOfRange ((specVal s 1).toInt * (specVal s 2).toInt), .arithmeticOverflow .mul),
    (decide (opc = 3) && s.inq.isEmpty, .inputExhaustion),
    (specHasDest opc && !inBounds s (specRaw s n), .addressingError .destWrite (specRaw s n)) ]

/-- The fault a step takes by R129: the first of the list whose condition holds. -/
def firstFault (s : State) : Option FatalError :=
  ((faultPriority s).find? fun c => c.1).map fun c => c.2

/-- `k` steps from `s` end in `t`, with no stop on the way. -/
def RunsTo (k : Nat) (s t : State) : Prop := Host.Core.run Sys2Proof.core k s = .next t

/-- The parts of the state that a step reads (R70). -/
structure SameInputs (s t : State) : Prop where
  mem : s.mem = t.mem
  len : s.len = t.len
  ip : s.ip = t.ip
  inq : s.inq = t.inq
  outq : s.outq = t.outq

end Sys2Proof.Machine
end

