-- ==== Sys2Proof/Certificates/Slice0/Obligations.lean ====
section
/-! DEFINITION. The statements about the model, from the numbered rules of spec/. "Decision D<n>" names the sentence of
spec/92_eei_decisions.md where a clause is the spec's own choice and not its source's; such a statement is 'derived'. -/

open Sys2Proof Sys2Proof.Machine

/-! ### Encoding -/

/-- Decoding the Words of a well-formed instruction gives it back, with every mode and every raw Word, and leaves the
Words behind it (R50, R64, R73). -/
def Obligations.DecodeEncodeRoundTrip : Prop :=
  ∀ (i : Instr) (rest : List Word), i.wellFormed = true → decode (encode i ++ rest) = .ok (i, rest)

/-- A decoded instruction is well formed (R58, decision D6) and its instruction value is not negative (R52, decision D4); its
encoding is the examined decimal digits of that value, each mode digit 0 or 1 (R51, R56, R59, R64, decisions D5, D7),
and its raw parameters are the Words that follow. The decisions are log entries 19 and 21. -/
def Obligations.EncodeOfDecodedKeepsExaminedDigits : Prop :=
  ∀ (v : Word) (ws : List Word) (i : Instr) (rest : List Word), decode (v :: ws) = .ok (i, rest) →
    i.wellFormed = true ∧ 0 ≤ v.toInt ∧
      v.toNat % 10 ^ (paramCount i.operation + 2) = encodeHead i ∧ ws = i.params.map Param.raw ++ rest

/-- Instruction Words written out digit by digit from the spec's tables decode to the instructions they stand for
(95_test_vectors.md, sections 1 and 2). Opcodes 03 to 08 rest on the spec's decision D3 (log entry 3), and that 12399 is
halt rests on decision D7, by which high digits are not examined (R59, log entry 21). -/
def Obligations.SpecWordsDecode : Prop :=
  decode [1002, 4, 3, 4, 33] = .ok (.multiply ⟨.positional, 4⟩ ⟨.immediate, 3⟩ ⟨.positional, 4⟩, [33]) ∧
  decode [101, 5, 2, 2] = .ok (.add ⟨.immediate, 5⟩ ⟨.positional, 2⟩ ⟨.positional, 2⟩, []) ∧
  decode [3, 9] = .ok (.readInput ⟨.positional, 9⟩, []) ∧
  decode [104, -42] = .ok (.writeOutput ⟨.immediate, -42⟩, []) ∧
  decode [1105, -1, 5] = .ok (.jumpIfTrue ⟨.immediate, -1⟩ ⟨.immediate, 5⟩, []) ∧
  decode [1006, 4, 3] = .ok (.jumpIfFalse ⟨.positional, 4⟩ ⟨.immediate, 3⟩, []) ∧
  decode [1107, -5, -4, 0] = .ok (.lessThan ⟨.immediate, -5⟩ ⟨.immediate, -4⟩ ⟨.positional, 0⟩, []) ∧
  decode [8, 4, 5, 6] = .ok (.equals ⟨.positional, 4⟩ ⟨.positional, 5⟩ ⟨.positional, 6⟩, []) ∧
  decode [12399] = .ok (.halt, [])

/-- Every Word falls in exactly one of the five classes of R61, tested in that order, with the outcome given there; the
opcodes, parameter counts and destinations are those of the table of R53 by number (decisions D3 to D7). -/
def Obligations.EveryInstructionValueIsClassified : Prop :=
  ∀ v : Word,
    (v.toInt < 0 → decodeHead v = .error (.negativeInstruction v)) ∧
    (0 ≤ v.toInt → specOperation (v.toNat % 100) = none → decodeHead v = .error (.unknownOpcode v)) ∧
    (∀ op, 0 ≤ v.toInt → specOperation (v.toNat % 100) = some op →
      (∀ j, 1 ≤ j → j ≤ specParamCount (v.toNat % 100) → 2 ≤ specModeDigit v.toNat j →
        (∀ k, 1 ≤ k → k < j → specModeDigit v.toNat k < 2) → decodeHead v = .error (.unknownModeDigit j)) ∧
      ((∀ j, 1 ≤ j → j ≤ specParamCount (v.toNat % 100) → specModeDigit v.toNat j < 2) →
        (specHasDest (v.toNat % 100) = true → specModeDigit v.toNat (specParamCount (v.toNat % 100)) = 1 →
          decodeHead v = .error (.writeTargetImmediate (specParamCount (v.toNat % 100)))) ∧
        (¬ (specHasDest (v.toNat % 100) = true ∧
            specModeDigit v.toNat (specParamCount (v.toNat % 100)) = 1) →
          ∃ h, decodeHead v = .ok h ∧ h.op = op ∧
            (1 ≤ specParamCount (v.toNat % 100) → h.m1 = specMode v.toNat 1) ∧
            (2 ≤ specParamCount (v.toNat % 100) → h.m2 = specMode v.toNat 2) ∧
            (3 ≤ specParamCount (v.toNat % 100) → h.m3 = specMode v.toNat 3))))

/-- With the unexamined digits zero, the legal instruction values are exactly the 28 of R61. The opcode numbers are decision
D3 (log entry 3); that no other value is legal rests on decisions D4, D5 and D6 (log entry 19). -/
def Obligations.CanonicalValuesAreTheTwentyEight : Prop :=
  ∀ v : Word, (∃ h, decodeHead v = .ok h ∧ v.toNat < 10 ^ (paramCount h.op + 2)) ↔
    v.toNat ∈ [1, 101, 1001, 1101, 2, 102, 1002, 1102, 3, 4, 104, 5, 105, 1005, 1105, 6, 106, 1006, 1106,
      7, 107, 1007, 1107, 8, 108, 1008, 1108, 99]

/-- Decimal digits above the mode digit of the opcode's last parameter have no effect (R59, decision D7). -/
def Obligations.UnexaminedDigitsHaveNoEffect : Prop :=
  ∀ (v v' : Word) (h : Head), decodeHead v = .ok h → 0 ≤ v'.toInt →
    v'.toNat % 10 ^ (paramCount h.op + 2) = v.toNat % 10 ^ (paramCount h.op + 2) → decodeHead v' = .ok h

/-- An instruction whose destination parameter is immediate has no encoding that decodes: its Words are rejected with
WriteTargetImmediate and the number of the destination parameter (R58, decision D6). -/
def Obligations.ImmediateDestinationIsRejected : Prop :=
  ∀ (i : Instr) (rest : List Word), i.wellFormed = false →
    decode (encode i ++ rest) = .error (.writeTargetImmediate (paramCount i.operation))

/-! ### The step -/

/-- A running machine whose `ip` is in bounds runs the instruction that the decoder reads from the Words at `ip`, and
nothing else happens in the step; where the decoder rejects them, the step is the entry of that fault (R65, R71). -/
def Obligations.StepRunsTheDecodedInstruction : Prop :=
  ∀ (maxLen : Nat) (s : State), Config.LegalMaxLen maxLen → s.len ≤ maxLen → s.status = .running →
    inBounds s s.ip = true →
    (∀ i rest, decode (codeAt s) = .ok (i, rest) → step s = exec i s) ∧
    (∀ r, decode (codeAt s) = .error r → step s = .next (takeFault (rejectError s.ip r) s))

/-- A step with `ip` outside the Program takes AddressingError Fetch and does nothing else (R72; codes: decision D9). -/
def Obligations.FetchOutsideTheProgramFaults : Prop :=
  ∀ s : State, s.status = .running → ¬ (0 ≤ s.ip.toInt ∧ s.ip.toInt < (s.len : Int)) →
    step s = .next (faulted s 2 0 s.ip)

/-- A negative Word at `ip` is no instruction: DecodeError NegativeInstruction (R52, R122; decisions D4, D9). -/
def Obligations.NegativeInstructionFaults : Prop :=
  ∀ s : State, s.status = .running → inBounds s s.ip = true → (s.wordAt s.ip).toInt < 0 →
    step s = .next (faulted s 1 1 (s.wordAt s.ip))

/-- Each of the 91 opcodes outside the closed table is fatal: DecodeError UnknownOpcode, after which the machine has no
step (R54). Which opcodes are in the table, and so that 91 are not, rests on the numbers 03 to 08 of R53 (decision D3, log
entry 3). -/
def Obligations.UnknownOpcodeIsFatal : Prop :=
  ((List.range 100).filter fun opc => decide (opc ∉ [1, 2, 3, 4, 5, 6, 7, 8, 99])).length = 91 ∧
  ∀ s : State, s.status = .running → inBounds s s.ip = true → 0 ≤ (s.wordAt s.ip).toInt →
    (s.wordAt s.ip).toNat % 100 ∉ [1, 2, 3, 4, 5, 6, 7, 8, 99] →
    step s = .next (takeFault (.decodeError .unknownOpcode (s.wordAt s.ip)) s) ∧
      step (takeFault (.decodeError .unknownOpcode (s.wordAt s.ip)) s) = .fault .noStepFaulted

/-- A mode digit 2 to 9 is ModeError UnknownModeDigit with the lowest such parameter; an immediate destination is
ModeError WriteTargetImmediate with its number (R56, R58, R126; decisions D5, D6, D9, log entry 19, and D10, log entry
20). Which opcodes are known, their parameter counts and their destinations are those of R53 by number, of which 03 to 08
are decision D3 (log entry 3). -/
def Obligations.ModeErrorsFault : Prop :=
  ∀ s : State, s.status = .running → inBounds s s.ip = true → 0 ≤ (s.wordAt s.ip).toInt →
    specKnown (specOpcode s) = true →
    (∀ j, 1 ≤ j → j ≤ specParamCount (specOpcode s) → 2 ≤ specModeDigit (s.wordAt s.ip).toNat j →
      (∀ k, 1 ≤ k → k < j → specModeDigit (s.wordAt s.ip).toNat k < 2) →
      step s = .next (faulted s 5 0 (BitVec.ofNat 64 j))) ∧
    ((∀ j, 1 ≤ j → j ≤ specParamCount (specOpcode s) → specModeDigit (s.wordAt s.ip).toNat j < 2) →
      specHasDest (specOpcode s) = true →
      specModeDigit (s.wordAt s.ip).toNat (specParamCount (specOpcode s)) = 1 →
      step s = .next (faulted s 5 1 (BitVec.ofNat 64 (specParamCount (specOpcode s)))))

/-- An instruction whose parameter slots run past the end of the Program takes AddressingError ParamFetch with
`finfo` = `LEN` (R73, R123; decisions D9, D10). -/
def Obligations.MissingParameterSlotFaults : Prop :=
  ∀ (maxLen : Nat) (s : State) (h : Head), Config.LegalMaxLen maxLen → s.len ≤ maxLen → s.status = .running →
    inBounds s s.ip = true → decodeHead (s.wordAt s.ip) = .ok h → s.len ≤ s.ip.toNat + paramCount h.op →
    step s = .next (faulted s 2 1 (BitVec.ofNat 64 s.len))

/-- A step takes the first fault of the priority list of R129, every condition of which is read off the state as it
stands; where no condition holds it executes the instruction of the opcode and does not fault. The order is decision D10;
the conditions rest on the opcode numbers (D3, log entry 3), on the faults of decisions D4, D5, D6, D8 and D9 (log entry
19), and on a not-taken jump's resolving its target (D24, log entry 20). -/
def Obligations.StepTakesTheFirstFaultOfThePriorityList : Prop :=
  ∀ s : State, s.status = .running →
    (∀ e, firstFault s = some e → step s = .next (takeFault e s)) ∧
    (firstFault s = none → ∃ i t, specOperation (specOpcode s) = some i.operation ∧
      fetchDecode s = .ok i ∧ exec i s = .next t ∧ step s = .next t ∧ t.status ≠ .faulted)

/-- The machine steps exactly while RUNNING; each step takes one fault or executes one instruction without a fault; and
the next state is a function of `mem`, `LEN`, `ip`, `inq` and `outq` alone: two running machines that agree on them
agree on them and on `status` after the step, and on the fault registers when the step faults; when it does not, the
fault registers are as before (R70). -/
def Obligations.StepOnlyWhileRunningAndByFiveParts : Prop :=
  (step State.reset = .fault .noStepIdle) ∧
  (∀ s : State, s.status = .idle → step s = .fault .noStepIdle) ∧
  (∀ s : State, s.status = .halted → step s = .fault .noStepHalted) ∧
  (∀ s : State, s.status = .faulted → step s = .fault .noStepFaulted) ∧
  (∀ s : State, s.status = .running → ∃ t, step s = .next t ∧
    ((∃ e, t = takeFault e s) ∨ (t.status ≠ .faulted ∧ ∃ i, fetchDecode s = .ok i ∧ exec i s = .next t))) ∧
  (∀ s s' : State, s.status = .running → s'.status = .running → SameInputs s s' →
    ∃ t t', step s = .next t ∧ step s' = .next t' ∧ SameInputs t t' ∧ t.status = t'.status ∧
      (t.status = .faulted →
        t.cause = t'.cause ∧ t.fkind = t'.fkind ∧ t.fip = t'.fip ∧ t.finfo = t'.finfo) ∧
      (t.status ≠ .faulted →
        t.cause = s.cause ∧ t.fkind = s.fkind ∧ t.fip = s.fip ∧ t.finfo = s.finfo))

/-- A run ends in success exactly when a halt instruction is executed and in failure exactly when a fault of the
priority list applies; every other step leaves the machine RUNNING (R15, R129, R146; decision D12). The list's conditions
rest on the opcode numbers (D3, log entry 3), on the faults of decisions D4, D5, D6 and D8 (log entry 19), and on a
not-taken jump's resolving its target (D24, log entry 20). -/
def Obligations.RunEndsByHaltOrByFault : Prop :=
  ∀ s t : State, step s = .next t →
    (t.status = .halted ↔ fetchDecode s = .ok .halt) ∧
    (t.status = .faulted ↔ (firstFault s).isSome = true) ∧
    (t.status = .running ↔ fetchDecode s ≠ .ok .halt ∧ firstFault s = none)

/-- Faults are precise: a faulting step changes nothing but `status` and the fault registers, which record a code of the
tables and the `ip` of the faulting step (R120, R121, R128; decisions D9, D11). -/
def Obligations.FaultsArePrecise : Prop :=
  ∀ s t : State, step s = .next t → t.status = .faulted →
    t.mem = s.mem ∧ t.len = s.len ∧ t.ip = s.ip ∧ t.inq = s.inq ∧ t.outq = s.outq ∧
      (t.cause, t.fkind) ∈ legalCodes ∧ t.fip = s.ip

/-- The default advance is 1 + the parameter count and never overflows a Word; halt does not advance; a taken jump
latches its target as it is (R12, R78; decisions D13, D14). -/
def Obligations.DefaultAdvanceIsExact : Prop :=
  ∀ (maxLen : Nat) (s t : State) (i : Instr), Config.LegalMaxLen maxLen → s.len ≤ maxLen →
    fetchDecode s = .ok i → step s = .next t → t.status ≠ .faulted →
    (i = .halt → t.ip = s.ip) ∧
    (∀ p1 p2, i = .jumpIfTrue p1 p2 → operandWord s p1 ≠ 0 → t.ip = operandWord s p2) ∧
    (∀ p1 p2, i = .jumpIfFalse p1 p2 → operandWord s p1 = 0 → t.ip = operandWord s p2) ∧
    (i ≠ .halt → (∀ p1 p2, i = .jumpIfTrue p1 p2 → operandWord s p1 = 0) →
      (∀ p1 p2, i = .jumpIfFalse p1 p2 → operandWord s p1 ≠ 0) →
      t.ip.toInt = s.ip.toInt + 1 + (paramCount i.operation : Int))

/-- A store is seen by the next fetch, with nothing needed in between: after a step that stores, the code at the new
`ip` holds the stored Word where the destination lies in it, were it an opcode or a parameter slot (R43, R80). -/
def Obligations.NextFetchSeesTheStore : Prop :=
  ∀ (maxLen : Nat) (s t : State) (i : Instr) (d : Param) (j : Nat), Config.LegalMaxLen maxLen → Inv maxLen s →
    fetchDecode s = .ok i → i.dest? = some d → step s = .next t → t.status ≠ .faulted →
    0 ≤ t.ip.toInt → d.raw.toNat = t.ip.toNat + j →
    (codeAt t)[j]? = some (resultWord i s)

/-! ### Invariants -/

/-- The reset state satisfies the invariant, for every capacity (R22; all reset values but `ip` = 0 are decision D18, log
entry 7; the form of memory is log entry 2). -/
def Obligations.ResetSatisfiesInv : Prop := ∀ maxLen : Nat, Inv maxLen State.reset

/-- Every step keeps the invariant: memory canonical and below `LEN` ≤ `MAX_LEN`, fault registers 0 without a fault and
a legal record of the faulting step with one (R11, R16, R22, R34, R121, R128). The form of memory is log entry 2; that
`LEN` is constant is decision D2 (log entry 13), the fault registers' reset value D18 (log entry 7), their codes D9 (log
entry 19), and that a fault leaves the rest D11 (log entry 17). -/
def Obligations.StepKeepsInv : Prop :=
  ∀ (maxLen : Nat) (s t : State), Inv maxLen s → step s = .next t → Inv maxLen t

/-- Every operation of the host keeps the invariant (R11, R22, R140, R141; decisions D15, log entry 16, and D18, log entry
7; the form of memory is log entry 2, and that LOAD of too long an image has no effect is log entry 13, DEDUCED). -/
def Obligations.HostOperationsKeepInv : Prop :=
  ∀ (maxLen : Nat) (op : HostOp) (s : State), Inv maxLen s → Inv maxLen (hostApply maxLen op s)

/-- Along every run `LEN` is constant, output is only appended, and input is only consumed from the front (R13, R14,
R34; decision D2, log entry 13; that a faulting step leaves both queues is decision D11, log entry 17). -/
def Obligations.RunKeepsLengthAndExtendsOutput : Prop :=
  ∀ (k : Nat) (s t : State), RunsTo k s t → t.len = s.len ∧ s.outq <+: t.outq ∧ t.inq <:+ s.inq

/-- From every launch, whatever state the machine was in before it, every state of the run satisfies the invariant, and
no run stops before it is HALTED or FAULTED (R23, R140, R144, R146; the invariant from R11, R16, R22, R128, R141). The
host's operations are decision D15 (log entry 16), the reset values D18 (log entry 7), the fault codes in the invariant
D9 (log entry 19), the form of memory log entry 2; that LOAD of too long an image has no effect is log entry 13, DEDUCED,
and that the state before the launch is any at all is log entry 15, DEDUCED. -/
def Obligations.EveryRunFromLaunchIsSafe : Prop :=
  ∀ (maxLen : Nat) (image : List Word) (patches : List (Word × Word)) (input : List Word) (s : State) (k : Nat),
    (∀ t, RunsTo k (launch maxLen image patches input s) t → Inv maxLen t ∧ t.status ≠ .idle) ∧
    ((∃ t, RunsTo k (launch maxLen image patches input s) t) ∨
      ∃ j t, j < k ∧ RunsTo j (launch maxLen image patches input s) t ∧
        (t.status = .halted ∨ t.status = .faulted))

/-- A jump to itself with a true immediate condition runs for ever: the machine places no bound on the steps of a run
(R84). -/
def Obligations.SelfJumpRunsForEver : Prop :=
  ∀ (s : State) (c : Word), s.status = .running → c ≠ 0 →
    fetchDecode s = .ok (.jumpIfTrue ⟨.immediate, c⟩ ⟨.immediate, s.ip⟩) → ∀ k, RunsTo k s s

/-! ### The instructions: their results, which are their completions -/

/-- add stores the exact sum of its two operands at the destination address and advances by 4, when the sum is a Word (R79,
R90; the range of a Word: R4, decision D1, log entry 6). -/
def Obligations.AddStoresTheSum : Prop :=
  ∀ (s : State) (p1 p2 d : Param), Readable s p1 → Readable s p2 →
    InWordRange ((operandWord s p1).toInt + (operandWord s p2).toInt) → inBounds s d.raw = true →
    ∃ r : Word, r.toInt = (operandWord s p1).toInt + (operandWord s p2).toInt ∧
      exec (.add p1 p2 d) s = .next (stored s d r)

/-- multiply stores the exact product of its two operands at the destination address and advances by 4, when the product
is a Word (R79, R91; the range of a Word: R4, decision D1, log entry 6). -/
def Obligations.MultiplyStoresTheProduct : Prop :=
  ∀ (s : State) (p1 p2 d : Param), Readable s p1 → Readable s p2 →
    InWordRange ((operandWord s p1).toInt * (operandWord s p2).toInt) → inBounds s d.raw = true →
    ∃ r : Word, r.toInt = (operandWord s p1).toInt * (operandWord s p2).toInt ∧
      exec (.multiply p1 p2 d) s = .next (stored s d r)

/-- less-than stores the Word 1 if value1 < value2, compared as signed integers, else the Word 0, and advances by 4
(R105). -/
def Obligations.LessThanStoresOneOrZero : Prop :=
  ∀ (s : State) (p1 p2 d : Param), Readable s p1 → Readable s p2 → inBounds s d.raw = true →
    exec (.lessThan p1 p2 d) s =
      .next (stored s d (if (operandWord s p1).toInt < (operandWord s p2).toInt then 1 else 0))

/-- equals stores the Word 1 if value1 = value2, else the Word 0, and advances by 4 (R106). -/
def Obligations.EqualsStoresOneOrZero : Prop :=
  ∀ (s : State) (p1 p2 d : Param), Readable s p1 → Readable s p2 → inBounds s d.raw = true →
    exec (.equals p1 p2 d) s =
      .next (stored s d (if (operandWord s p1).toInt = (operandWord s p2).toInt then 1 else 0))

/-- read-input stores the head of the input at the destination address, removes it, and advances by 2 (R95). -/
def Obligations.ReadInputStoresTheHead : Prop :=
  ∀ (s : State) (d : Param) (x : Word) (rest : List Word), s.inq = x :: rest → inBounds s d.raw = true →
    exec (.readInput d) s =
      .next { s with mem := Memory.write s.mem d.raw.toNat x, inq := rest, ip := s.ip + 2 }

/-- write-output appends its resolved operand to the output and advances by 2 (R96; unbounded output: decision D17). -/
def Obligations.WriteOutputAppends : Prop :=
  ∀ (s : State) (p : Param), Readable s p →
    exec (.writeOutput p) s = .next { s with outq := s.outq ++ [operandWord s p], ip := s.ip + 2 }

/-- jump-if-true sets `ip` to value2 if value1 ≠ 0, whatever value2 is, and else advances by 3 (R100; unchecked target:
decision D14). -/
def Obligations.JumpIfTrueRedirects : Prop :=
  ∀ (s : State) (p1 p2 : Param), Readable s p1 → Readable s p2 →
    exec (.jumpIfTrue p1 p2) s =
      .next { s with ip := if operandWord s p1 ≠ 0 then operandWord s p2 else s.ip + 3 }

/-- jump-if-false sets `ip` to value2 if value1 = 0, whatever value2 is, and else advances by 3 (R101). -/
def Obligations.JumpIfFalseRedirects : Prop :=
  ∀ (s : State) (p1 p2 : Param), Readable s p1 → Readable s p2 →
    exec (.jumpIfFalse p1 p2) s =
      .next { s with ip := if operandWord s p1 = 0 then operandWord s p2 else s.ip + 3 }

/-- halt makes `status` HALTED and changes nothing else; the machine then has no step, and the result of the run is
success with the output sequence and the final memory (R24, R110). That `ip` stays is decision D13 (log entry 18), and
that the final memory belongs to the result is decision D22. -/
def Obligations.HaltEndsTheRunInSuccess : Prop :=
  ∀ s : State, exec .halt s = .next { s with status := .halted } ∧
    step { s with status := .halted } = .fault .noStepHalted ∧
    runResult { s with status := .halted } = some (.success s.outq (Memory.words s.mem 0 s.len))

/-! ### Their faults -/

/-- Both read parameters are resolved before any effect, parameter 1 first, and whether or not the operation will use
them: an unreadable one is AddressingError OperandRead with its raw Word, a not-taken jump's target included (R74,
R76, R123; decisions D9, D10, D24). -/
def Obligations.UnreadableOperandFaults : Prop :=
  ∀ (s : State) (p1 p2 d : Param) (i : Instr),
    i ∈ [Instr.add p1 p2 d, .multiply p1 p2 d, .lessThan p1 p2 d, .equals p1 p2 d, .jumpIfTrue p1 p2,
      .jumpIfFalse p1 p2] →
    (¬ Readable s p1 → exec i s = .next (faulted s 2 2 p1.raw)) ∧
    (Readable s p1 → ¬ Readable s p2 → exec i s = .next (faulted s 2 2 p2.raw)) ∧
    (¬ Readable s p1 → exec (.writeOutput p1) s = .next (faulted s 2 2 p1.raw))

/-- A sum or product outside the Word range is ArithmeticOverflow, never a wrapped or saturated Word, and is reported in
preference to a bad destination (R79, R92, R127; decisions D8 and D9, log entry 19; D10, log entry 20; the range: R4,
decision D1, log entry 6). -/
def Obligations.OverflowFaults : Prop :=
  ∀ (s : State) (p1 p2 d : Param), Readable s p1 → Readable s p2 →
    (¬ InWordRange ((operandWord s p1).toInt + (operandWord s p2).toInt) →
      exec (.add p1 p2 d) s = .next (faulted s 6 0 0)) ∧
    (¬ InWordRange ((operandWord s p1).toInt * (operandWord s p2).toInt) →
      exec (.multiply p1 p2 d) s = .next (faulted s 6 1 0))

/-- read-input with no remaining input is InputExhaustion, with `fip` = `ip`, `fkind` = 0 and `finfo` = 0, and no other
instruction raises it (R124). That this holds whatever the destination is, is decision D10 (R95, R129, log entry 20), and
the codes are decision D9 (log entry 19). -/
def Obligations.InputExhaustionFaults : Prop :=
  (∀ (s : State) (d : Param), s.inq = [] → exec (.readInput d) s = .next (faulted s 3 0 0)) ∧
  (∀ s t : State, step s = .next t → t.status = .faulted → t.cause = 3 →
    (∃ d, fetchDecode s = .ok (.readInput d)) ∧ s.inq = [])

/-- A destination out of bounds is AddressingError DestWrite with the destination address; nothing is stored, and
read-input consumes nothing (R79, R95, R123; decisions D9, D10, D11). -/
def Obligations.DestinationOutOfBoundsFaults : Prop :=
  (∀ (s : State) (p1 p2 d : Param), Readable s p1 → Readable s p2 → inBounds s d.raw = false →
    (InWordRange ((operandWord s p1).toInt + (operandWord s p2).toInt) →
      exec (.add p1 p2 d) s = .next (faulted s 2 3 d.raw)) ∧
    (InWordRange ((operandWord s p1).toInt * (operandWord s p2).toInt) →
      exec (.multiply p1 p2 d) s = .next (faulted s 2 3 d.raw)) ∧
    exec (.lessThan p1 p2 d) s = .next (faulted s 2 3 d.raw) ∧
    exec (.equals p1 p2 d) s = .next (faulted s 2 3 d.raw)) ∧
  (∀ (s : State) (d : Param), s.inq ≠ [] → inBounds s d.raw = false →
    exec (.readInput d) s = .next (faulted s 2 3 d.raw))

/-! ### Frames -/

/-- What add, multiply, less-than and equals leave unchanged: `LEN` and both queues; every address but the destination;
without a fault, `status` and the fault registers; with one, `mem` and `ip` (R77, R79, R120). -/
def Obligations.StoringInstructionsFrame : Prop :=
  ∀ (s t : State) (p1 p2 d : Param) (i : Instr),
    i ∈ [Instr.add p1 p2 d, .multiply p1 p2 d, .lessThan p1 p2 d, .equals p1 p2 d] →
    Memory.wf s.mem = true → s.status ≠ .faulted → exec i s = .next t →
    t.len = s.len ∧ t.inq = s.inq ∧ t.outq = s.outq ∧ SameMemoryBut (destAddr d).toNat s t ∧
      (t.status ≠ .faulted → SameStatus s t) ∧ (t.status = .faulted → SameMemory s t ∧ t.ip = s.ip)

/-- What read-input leaves unchanged: `LEN`, `outq` and every address but the destination; without a fault, `status` and
the fault registers, and exactly the head of `inq` is consumed; with one, `mem`, `inq` and `ip` (R95, R120). -/
def Obligations.ReadInputFrame : Prop :=
  ∀ (s t : State) (d : Param), Memory.wf s.mem = true → s.status ≠ .faulted → exec (.readInput d) s = .next t →
    t.len = s.len ∧ t.outq = s.outq ∧ SameMemoryBut (destAddr d).toNat s t ∧
      (t.status ≠ .faulted → SameStatus s t ∧ ∃ x, s.inq = x :: t.inq) ∧
      (t.status = .faulted → SameMemory s t ∧ t.inq = s.inq ∧ t.ip = s.ip)

/-- What write-output, the jumps and halt leave unchanged: all of memory, `LEN` and `inq`; the jumps and halt `outq`;
without a fault, the fault registers, and all but halt `status`; with one, `outq` and `ip` (R77, R120). -/
def Obligations.NonStoringInstructionsFrame : Prop :=
  ∀ (s t : State) (p1 p2 : Param) (i : Instr),
    i ∈ [Instr.writeOutput p1, .jumpIfTrue p1 p2, .jumpIfFalse p1 p2, .halt] → s.status ≠ .faulted →
    exec i s = .next t →
    SameMemory s t ∧ t.len = s.len ∧ t.inq = s.inq ∧
      (i.operation ≠ .writeOutput → t.outq = s.outq) ∧
      (t.status ≠ .faulted → t.cause = s.cause ∧ t.fkind = s.fkind ∧ t.fip = s.fip ∧ t.finfo = s.finfo ∧
        (i.operation ≠ .halt → t.status = s.status)) ∧
      (t.status = .faulted → t.outq = s.outq ∧ t.ip = s.ip)

/-! ### The shared operations -/

/-- MemRead returns the Word at an address in bounds and raises AddressingError with its kind and the address for every
other one; the bounds are signed and there is no clamping, default value or wrap (R31). -/
def Obligations.MemReadIsChecked : Prop :=
  ∀ (s : State) (a : Word) (kind : AccessKind),
    (0 ≤ a.toInt → a.toInt < (s.len : Int) → memRead kind a s = .ok (Memory.read s.mem a.toInt.toNat)) ∧
    (a.toInt < 0 ∨ (s.len : Int) ≤ a.toInt → memRead kind a s = .error (.addressingError kind a))

/-- MemWrite replaces exactly the Word at an address in bounds, changes no other Word and nothing but `mem`, and raises
AddressingError DestWrite for every other address: a write never extends the Program (R32). The premise is the
invariant of StepKeepsInv that the list which holds memory is canonical. -/
def Obligations.MemWriteReplacesExactlyOneWord : Prop :=
  ∀ (s : State) (a v : Word), Memory.wf s.mem = true →
    (0 ≤ a.toInt → a.toInt < (s.len : Int) → ∃ m, memWrite a v s = .ok { s with mem := m } ∧
      Memory.read m a.toInt.toNat = v ∧
      ∀ b, b ≠ a.toInt.toNat → Memory.read m b = Memory.read s.mem b) ∧
    (a.toInt < 0 ∨ (s.len : Int) ≤ a.toInt → memWrite a v s = .error (.addressingError .destWrite a))

/-- Val: an immediate parameter is its raw Word and never faults; a positional one is the Word at its raw address, or
AddressingError OperandRead with that address; nothing is modified (R74). -/
def Obligations.ValResolvesByMode : Prop :=
  ∀ (s : State) (raw : Word),
    val ⟨.immediate, raw⟩ s = .ok raw ∧
    (0 ≤ raw.toInt → raw.toInt < (s.len : Int) →
      val ⟨.positional, raw⟩ s = .ok (Memory.read s.mem raw.toInt.toNat)) ∧
    (raw.toInt < 0 ∨ (s.len : Int) ≤ raw.toInt →
      val ⟨.positional, raw⟩ s = .error (.addressingError .operandRead raw))

/-- The ALU's table: exact sum and product with the overflow output for a result outside -2^63..2^63-1, signed
less-than, equality of whole Words, and the test for non-zero, in which the second operand is unused (R82); with the
overflow output 1 the result is not used and the operation is ArithmeticOverflow. The bounds are decision D1 (R4, log
entry 6), and that an overflow faults is decision D8 (R92, log entry 19). -/
def Obligations.AluTable : Prop :=
  ∀ a b : Word,
    (alu .add a b).result = a.toInt + b.toInt ∧
    ((alu .add a b).overflow = true ↔ a.toInt + b.toInt < -2 ^ 63 ∨ 2 ^ 63 - 1 < a.toInt + b.toInt) ∧
    (alu .mul a b).result = a.toInt * b.toInt ∧
    ((alu .mul a b).overflow = true ↔ a.toInt * b.toInt < -2 ^ 63 ∨ 2 ^ 63 - 1 < a.toInt * b.toInt) ∧
    (alu .lt a b).result = (if a.toInt < b.toInt then 1 else 0) ∧ (alu .lt a b).overflow = false ∧
    (alu .eq a b).result = (if a.toInt = b.toInt then 1 else 0) ∧ (alu .eq a b).overflow = false ∧
    (alu .nz a b).result = (if a.toInt ≠ 0 then 1 else 0) ∧ (alu .nz a b).overflow = false ∧
    (∀ op kind, (alu op a b).overflow = true → aluChecked op kind a b = .error (.arithmeticOverflow kind)) ∧
    (∀ op kind, (alu op a b).overflow = false →
      ∃ r, aluChecked op kind a b = .ok r ∧ r.toInt = (alu op a b).result)

/-- Fault entry: `status` is FAULTED, `cause`, `fkind`, `fip` and `finfo` are written, `mem`, `LEN`, `ip`, `inq` and `outq`
are unchanged, there is no further step, and the output produced before is not delivered (R24, R130). That the rest is
unchanged is decision D11 (R120, log entry 17), and the recorded codes and Words are decision D9 (log entry 19). -/
def Obligations.FaultEntry : Prop :=
  ∀ (e : FatalError) (s : State), ∃ t, takeFault e s = t ∧
    t.status = .faulted ∧ t.cause = causeCode e ∧ t.fkind = kindCode e ∧ t.fip = s.ip ∧ t.finfo = infoWord e ∧
    t.mem = s.mem ∧ t.len = s.len ∧ t.ip = s.ip ∧ t.inq = s.inq ∧ t.outq = s.outq ∧
    step t = .fault .noStepFaulted ∧ readOutq t = none ∧
    runResult t = some (.failure ⟨causeCode e, kindCode e, s.ip, infoWord e⟩)

/-- No return from a fault: a machine in FAULTED or HALTED does not step, and the only operation of the host that
changes it is RESET, after which nothing of the run is left (R131). That every other operation of the host has no effect
is decision D15 (R141, log entry 16), and the state after RESET is decision D18 (R22, R140, log entry 7). -/
def Obligations.NoReturnFromFaultOrHalt : Prop :=
  ∀ s : State, s.status = .faulted ∨ s.status = .halted →
    (∀ t, step s ≠ .next t) ∧
    ∀ (maxLen : Nat) (op : HostOp), (op ≠ .reset → hostApply maxLen op s = s) ∧
      (op = .reset → hostApply maxLen op s = State.reset)

/-! ### The host's side -/

/-- RESET leaves, from every state, `status` IDLE, `ip` 0, `LEN` 0, both queues empty, the fault registers 0 and no
addressable cell (R22, R140; all but `ip` = 0 is decision D18). -/
def Obligations.ResetFromAnyState : Prop :=
  ∀ (maxLen : Nat) (s : State), ∃ t, hostApply maxLen .reset s = t ∧ t = State.reset ∧
    t.status = .idle ∧ t.ip = 0 ∧ t.len = 0 ∧ t.inq = [] ∧ t.outq = [] ∧
    t.cause = 0 ∧ t.fkind = 0 ∧ t.fip = 0 ∧ t.finfo = 0 ∧ ∀ a, inBounds t a = false

/-- Outside IDLE no operation of the host but RESET has an effect (R141; decision D15). -/
def Obligations.HostActsOnlyInIdle : Prop :=
  ∀ (maxLen : Nat) (op : HostOp) (s : State), s.status ≠ .idle → op ≠ .reset → hostApply maxLen op s = s

/-- LOAD in IDLE makes `mem` the image and `LEN` its length and changes nothing else (R11, R141; decisions D2 and D15, log
entries 13 and 16; the form of memory is log entry 2); an image longer than `MAX_LEN` has no effect, which is the model's
reading of R141 (DEDUCED, log entry 13). -/
def Obligations.LoadInstallsTheImage : Prop :=
  ∀ (maxLen : Nat) (image : List Word) (s : State), s.status = .idle →
    (image.length ≤ maxLen → ∃ m, hostApply maxLen (.load image) s = { s with mem := m, len := image.length } ∧
      Memory.wf m = true ∧ Memory.below m image.length = true ∧ Memory.words m 0 image.length = image) ∧
    (maxLen < image.length → hostApply maxLen (.load image) s = s)

/-- PATCH in IDLE replaces exactly one Word in bounds and changes nothing else; out of bounds it is refused and changes
nothing (R141; decision D15). -/
def Obligations.PatchReplacesOneWord : Prop :=
  ∀ (maxLen : Nat) (a w : Word) (s : State), s.status = .idle → Memory.wf s.mem = true →
    (inBounds s a = true → ∃ m, hostApply maxLen (.patch a w) s = { s with mem := m } ∧
      Memory.read m a.toNat = w ∧ ∀ b, b ≠ a.toNat → Memory.read m b = Memory.read s.mem b) ∧
    (inBounds s a = false → hostApply maxLen (.patch a w) s = s)

/-- Whatever the machine did before, RESET, LOAD, PATCHes, SUPPLY and START leave the launch state: `mem` the image as
patched, `LEN` its length, `ip` 0, `inq` the whole input, `outq` empty, fault registers 0, RUNNING (R22, R142, R144;
decisions D15, D18, D25). -/
def Obligations.LaunchState : Prop :=
  ∀ (maxLen : Nat) (image : List Word) (patches : List (Word × Word)) (input : List Word) (s : State),
    image.length ≤ maxLen → (∀ p ∈ patches, 0 ≤ p.1.toInt ∧ p.1.toInt < (image.length : Int)) →
    ∃ m, launch maxLen image patches input s =
        { State.reset with mem := m, len := image.length, inq := input, status := .running } ∧
      Memory.wf m = true ∧
      Memory.words m 0 image.length = patches.foldl (fun im p => im.set p.1.toNat p.2) image

/-- START without a LOAD launches a Program of length 0, whose first step faults with AddressingError Fetch and
`finfo` = 0 (R72, R142). The codes `cause` 2 and `fkind` 0 are R121 and R123 (decision D9, log entry 19); the state it
starts from is that of R22 (decision D18, log entry 7), and the host's operations are R141 (decision D15, log entry 16). -/
def Obligations.StartWithoutLoadFaults : Prop :=
  ∀ (maxLen : Nat) (input : List Word) (s : State),
    step (hostApplyAll maxLen [.reset, .supply input, .start] s) =
      .next (faulted { State.reset with inq := input, status := .running } 2 0 0)

/-- What the host can read, and what it reads there: `status` always, as the code of R15; `outq`, and `mem` in bounds, in
HALTED and only there; the fault registers in FAULTED and only there. A run in IDLE or RUNNING has no result, one in
HALTED has its output and final memory, one in FAULTED the fault registers; two faulted machines with the same record
have the same result, whatever their memory and queues hold, and a success is never a failure (R15, R16, R24, R141;
decisions D9, D12, D15, D17, D22). -/
def Obligations.HostReadsOnlyWhatTheStatusAllows : Prop :=
  (∀ s : State, (s.status = .idle → readStatus s = 0) ∧ (s.status = .running → readStatus s = 1) ∧
    (s.status = .halted → readStatus s = 2) ∧ (s.status = .faulted → readStatus s = 3)) ∧
  (∀ s : State, s.status = .halted → readOutq s = some s.outq ∧
    (∀ a, inBounds s a = true → readMem a s = some (s.wordAt a)) ∧ (∀ a, inBounds s a = false → readMem a s = none) ∧
    runResult s = some (.success s.outq (Memory.words s.mem 0 s.len))) ∧
  (∀ s : State, s.status ≠ .halted → readOutq s = none ∧ ∀ a, readMem a s = none) ∧
  (∀ s : State, s.status = .faulted → readFault s = some ⟨s.cause, s.fkind, s.fip, s.finfo⟩ ∧
    runResult s = some (.failure ⟨s.cause, s.fkind, s.fip, s.finfo⟩)) ∧
  (∀ s : State, s.status ≠ .faulted → readFault s = none) ∧
  (∀ s : State, s.status = .idle ∨ s.status = .running → runResult s = none) ∧
  (∀ s t : State, s.status = .faulted → t.status = .faulted → readFault s = readFault t →
    runResult s = runResult t) ∧
  (∀ s t : State, s.status = .halted → t.status = .faulted → runResult s ≠ runResult t)

/-- The signal-level writes of R145 do what the host's operations do. In IDLE with an empty store, whatever the rest of
the state, ascending writes of an image are LOAD; a write at an address in bounds is PATCH, in every status; a write above
`LEN` is refused; and in IDLE, appending the input Word by Word is SUPPLY of what `inq` then holds (R141, R145; decision
D15, log entries 11 and 16; the empty store as data: log entry 2). -/
def Obligations.SignalWritesAreLoadAndSupply : Prop :=
  (∀ (maxLen : Nat) (image : List Word) (s : State), s.status = .idle → s.len = 0 → s.mem = [] →
    image.length ≤ maxLen → loadWrites maxLen 0 image s = hostLoad maxLen image s) ∧
  (∀ (maxLen : Nat) (a w : Word) (s : State), inBounds s a = true → loadWrite maxLen a.toNat w s = hostPatch a w s) ∧
  (∀ (maxLen addr : Nat) (w : Word) (s : State), s.len < addr → loadWrite maxLen addr w s = s) ∧
  (∀ (ws : List Word) (s : State), s.status = .idle → inputWrites ws s = hostSupply (s.inq ++ ws) s)

/-- The loader delivers the Words of the pieces of a text of pieces joined by commas, with any white space around it,
as long as there are no more than `MAX_LEN` (R150; decision D23; white space: log entry 10); with more pieces than
`MAX_LEN` the text is a ParseError, which is the model's reading of R150 (DEDUCED, log entry 12). -/
def Obligations.LoaderDeliversThePieces : Prop :=
  ∀ (maxLen : Nat) (before after : List Char) (pieces : List (List Char)) (ws : List Word),
    (∀ c ∈ before, c.isWhitespace = true) → (∀ c ∈ after, c.isWhitespace = true) → pieces ≠ [] →
    pieces.map parsePiece = ws.map some →
    (ws.length ≤ maxLen →
      parseImage maxLen (before ++ List.intercalate [','] pieces ++ after) = .ok ws) ∧
    (maxLen < ws.length →
      parseImage maxLen (before ++ List.intercalate [','] pieces ++ after) = .error .parseError)

/-- A piece is accepted exactly when it is an optional minus and one or more decimal digits and its value is a Word (R150;
decision D23; the range of a Word: R4, decision D1, log entry 6); a text with any other piece, the empty piece included,
is a ParseError (white space at its ends: log entry 10). -/
def Obligations.LoaderAcceptsExactlyTheGrammar : Prop :=
  (∀ (piece : List Char) (w : Word), parsePiece piece = some w ↔
    ∃ ds : List Char, ds ≠ [] ∧ (∀ c ∈ ds, c.isDigit = true) ∧
      ((piece = ds ∧ w.toInt = (digitsValue ds : Int)) ∨
        (piece = '-' :: ds ∧ w.toInt = -(digitsValue ds : Int)))) ∧
  (∀ (maxLen : Nat) (text : List Char), (∃ piece ∈ splitCommas (trimText text), parsePiece piece = none) →
    parseImage maxLen text = .error .parseError)
end

