-- ==== Sys2Proof/Laws/Decode.lean ====
section
/-! SUPPORT. The laws of the decoder's parts: the opcode map is injective, what a decoded head says about its
instruction value, the digits of an encoded head, and the greatest legal `MAX_LEN`. -/

namespace Sys2Proof

/-- `maxLenCap` is the greatest capacity the constraint of R4 admits. -/
theorem Config.legalMaxLen_iff (n : Nat) : Config.LegalMaxLen n ↔ n ≤ Config.maxLenCap := by
  unfold Config.LegalMaxLen Config.wMax Config.maxLenCap
  constructor
  · intro h
    by_contra hn
    have h1 : (3037000500 : Int) ≤ (n : Int) - 1 := by omega
    have := mul_le_mul h1 h1 (by norm_num) (by omega)
    omega
  · intro h
    rcases Nat.eq_zero_or_pos n with rfl | hp
    · norm_num
    · have h1 : (n : Int) - 1 ≤ 3037000499 := by omega
      have := mul_le_mul h1 h1 (by omega) (by norm_num)
      omega

@[simp] theorem operationOf_opMap (op : Operation) : operationOf (opMap op) = some op := by
  cases op <;> rfl

/-- The lookup inverts `OPMAP`. -/
theorem operationOf_eq_some {n : Nat} {op : Operation} : operationOf n = some op ↔ n = opMap op := by
  constructor
  · intro h
    unfold operationOf at h
    have := List.find?_some h
    exact (beq_iff_eq.mp this).symm
  · rintro rfl
    exact operationOf_opMap op

theorem opMap_lt (op : Operation) : opMap op < 100 := by cases op <;> decide

theorem paramCount_le (op : Operation) : paramCount op ≤ 3 := by cases op <;> decide

@[simp] theorem params_length (i : Instr) : i.params.length = paramCount i.operation := by cases i <;> rfl

@[simp] theorem encode_length (i : Instr) : (encode i).length = 1 + paramCount i.operation := by
  simp [encode, Nat.add_comm]

/-- The search for a mode digit 2 to 9, as the chain of checks it makes. -/
theorem badModeParam_eq (v n : Nat) :
    badModeParam v n =
      if 1 ≤ n ∧ 2 ≤ modeDigit v 1 then some 1
      else if 2 ≤ n ∧ 2 ≤ modeDigit v 2 then some 2
      else if 3 ≤ n ∧ 2 ≤ modeDigit v 3 then some 3 else none := by
  by_cases h1 : 1 ≤ n ∧ 2 ≤ modeDigit v 1 <;> by_cases h2 : 2 ≤ n ∧ 2 ≤ modeDigit v 2 <;>
    by_cases h3 : 3 ≤ n ∧ 2 ≤ modeDigit v 3 <;>
    simp [badModeParam, ← Bool.decide_and, h1, h2, h3]

/-- No examined mode digit is 2 to 9. -/
theorem badModeParam_eq_none {v n : Nat} :
    badModeParam v n = none ↔ ∀ j, 1 ≤ j → j ≤ 3 → j ≤ n → modeDigit v j < 2 := by
  rw [badModeParam_eq]
  constructor
  · intro h j h1 h3 hn
    split_ifs at h
    interval_cases j <;> omega
  · intro h
    have e1 := h 1
    have e2 := h 2
    have e3 := h 3
    rw [if_neg (by omega), if_neg (by omega), if_neg (by omega)]

/-- The reported parameter is the lowest with a mode digit 2 to 9. -/
theorem badModeParam_eq_some {v n j : Nat} :
    badModeParam v n = some j ↔
      1 ≤ j ∧ j ≤ 3 ∧ j ≤ n ∧ 2 ≤ modeDigit v j ∧ ∀ k, 1 ≤ k → k < j → modeDigit v k < 2 := by
  rw [badModeParam_eq]
  constructor
  · intro h
    split_ifs at h <;> obtain rfl := Option.some.inj h <;>
      exact ⟨by omega, by omega, by omega, by omega, fun k hk hlt => by interval_cases k <;> omega⟩
  · rintro ⟨h1, h3, hn, hd, hk⟩
    have e1 := hk 1
    have e2 := hk 2
    interval_cases j
    · rw [if_pos (by omega)]
    · rw [if_neg (by omega), if_pos (by omega)]
    · rw [if_neg (by omega), if_neg (by omega), if_pos (by omega)]

/-- What a decoded head says of the instruction value: the five conditions under which R61 calls it legal. -/
theorem decodeHead_eq_ok {v : Word} {h : Head} :
    decodeHead v = .ok h ↔
      0 ≤ v.toInt ∧ v.toNat % 100 = opMap h.op ∧ badModeParam v.toNat (paramCount h.op) = none ∧
      ¬ (hasDest h.op ∧ modeAt v.toNat (paramCount h.op) (paramCount h.op) = .immediate) ∧
      h.m1 = modeAt v.toNat (paramCount h.op) 1 ∧ h.m2 = modeAt v.toNat (paramCount h.op) 2 ∧
      h.m3 = modeAt v.toNat (paramCount h.op) 3 := by
  unfold decodeHead
  constructor
  · intro he
    split at he
    · simp at he
    · rename_i hs
      split at he
      · simp at he
      · rename_i op hop
        simp only at he
        split at he
        · simp at he
        · rename_i hb
          split at he
          · simp at he
          · rename_i hd
            simp only [Except.ok.injEq] at he
            subst he
            exact ⟨by omega, operationOf_eq_some.mp hop, hb, hd, rfl, rfl, rfl⟩
  · rintro ⟨hs, hop, hb, hd, h1, h2, h3⟩
    rw [if_neg (by omega), operationOf_eq_some.mpr hop]
    simp only [hb, if_neg hd]
    obtain ⟨op, m1, m2, m3⟩ := h
    simp_all

/-! ### Digits of an encoded head -/

theorem modeCode_lt (m : Mode) : modeCode m < 2 := by cases m <;> decide

theorem encodeHead_lt (i : Instr) : encodeHead i < 100 * 10 ^ paramCount i.operation := by
  cases i <;> simp only [encodeHead, Instr.operation, Instr.params, opMap, modeDigits, paramCount] <;>
    (first | omega | (rename_i a; have := modeCode_lt a.mode; omega) |
      (rename_i a b; have := modeCode_lt a.mode; have := modeCode_lt b.mode; omega) |
      (rename_i a b c; have := modeCode_lt a.mode; have := modeCode_lt b.mode; have := modeCode_lt c.mode; omega))

theorem encodeHead_toNat (i : Instr) : (BitVec.ofNat 64 (encodeHead i)).toNat = encodeHead i := by
  have h := encodeHead_lt i
  have : 100 * 10 ^ paramCount i.operation ≤ 100 * 10 ^ 3 :=
    Nat.mul_le_mul_left _ (Nat.pow_le_pow_right (by omega) (paramCount_le _))
  rw [BitVec.toNat_ofNat]
  omega

theorem encodeHead_mod (i : Instr) : encodeHead i % 100 = opMap i.operation := by
  cases i <;> simp only [encodeHead, Instr.operation, Instr.params, opMap, modeDigits] <;> omega

end Sys2Proof
end

