-- ==== Sys2Proof/Laws/Memory.lean ====
section
/-! SUPPORT. The laws of the Program Store as data: what a read gives after a write and after a load, that every
operation keeps the canonical form, and that in canonical form equal contents are equal lists. -/

namespace Sys2Proof.Machine

@[simp] theorem Memory.read_nil (a : Nat) : Memory.read [] a = 0 := rfl

@[simp] theorem Memory.wf_nil : Memory.wf [] = true := rfl

theorem Memory.wf_cons {a : Nat} {w : Word} {rest : List Cell} :
    Memory.wf ((a, w) :: rest) = true ↔
      w ≠ 0 ∧ (∀ c ∈ rest, a < c.1) ∧ Memory.wf rest = true := by
  simp [Memory.wf, unlistedWord, and_assoc]

@[simp] theorem Memory.below_nil (n : Nat) : Memory.below [] n = true := rfl

theorem Memory.below_cons {c : Cell} {rest : List Cell} {n : Nat} :
    Memory.below (c :: rest) n = true ↔ c.1 < n ∧ Memory.below rest n = true := by
  simp [Memory.below]

/-- An address before every cell reads as an unlisted one. -/
theorem Memory.read_eq_zero {m : List Cell} {a : Nat} (h : ∀ c ∈ m, a < c.1) : Memory.read m a = 0 := by
  induction m with
  | nil => rfl
  | cons c rest ih =>
    obtain ⟨b, w⟩ := c
    have hb : a < b := h (b, w) (by simp)
    rw [Memory.read, if_neg (by omega)]
    exact ih fun c hc => h c (by simp [hc])

/-- An address at or above `n` reads as an unlisted one when every cell lies below `n`. -/
theorem Memory.read_of_below {m : List Cell} {n a : Nat} (h : Memory.below m n = true) (ha : n ≤ a) :
    Memory.read m a = 0 := by
  induction m with
  | nil => rfl
  | cons c rest ih =>
    obtain ⟨b, w⟩ := c
    obtain ⟨hb, hr⟩ := Memory.below_cons.mp h
    have hb' : b < n := hb
    rw [Memory.read, if_neg (by omega)]
    exact ih hr

/-- A write changes the Word at its own address and no other. -/
theorem Memory.read_write {m : List Cell} (hm : Memory.wf m = true) (a b : Nat) (w : Word) :
    Memory.read (Memory.write m a w) b = if b = a then w else Memory.read m b := by
  induction m with
  | nil => by_cases hw : w = 0#64 <;> by_cases hb : b = a <;> simp [Memory.write, Memory.read, unlistedWord, hw, hb]
  | cons c rest ih =>
    obtain ⟨k, x⟩ := c
    obtain ⟨hx, hlt, hr⟩ := Memory.wf_cons.mp hm
    have hz : ∀ j, j ≤ k → Memory.read rest j = 0 := fun j hj =>
      Memory.read_eq_zero fun c hc => by have := hlt c hc; omega
    rw [Memory.write]
    by_cases h1 : a < k
    · have ha := hz a (by omega)
      by_cases hw : w = 0#64 <;> by_cases hb : b = a <;>
        simp_all [unlistedWord, Memory.read, show a ≠ k by omega]
    · by_cases h2 : a = k
      · have ha := hz a (by omega)
        by_cases hw : w = 0#64 <;> by_cases hb : b = a <;> simp_all [unlistedWord, Memory.read]
      · by_cases hb : b = k
        · simp [h1, h2, Memory.read, hb, show k ≠ a by omega]
        · simp [h1, h2, Memory.read, hb, ih hr]

@[simp] theorem Memory.read_write_same {m : List Cell} (hm : Memory.wf m = true) (a : Nat) (w : Word) :
    Memory.read (Memory.write m a w) a = w := by simp [Memory.read_write hm]

theorem Memory.read_write_other {m : List Cell} (hm : Memory.wf m = true) {a b : Nat} (w : Word) (h : b ≠ a) :
    Memory.read (Memory.write m a w) b = Memory.read m b := by simp [Memory.read_write hm, h]

/-- Every cell after a write is the written one or an old one. -/
theorem Memory.mem_write {m : List Cell} {a : Nat} {w : Word} {c : Cell} (h : c ∈ Memory.write m a w) :
    c = (a, w) ∨ c ∈ m := by
  induction m with
  | nil =>
    by_cases hw : w = unlistedWord
    · simp [Memory.write, hw] at h
    · simp [Memory.write, hw] at h; exact .inl h
  | cons d rest ih =>
    obtain ⟨k, x⟩ := d
    rw [Memory.write] at h
    split at h
    · split at h
      · exact .inr h
      · rcases List.mem_cons.mp h with h | h
        · exact .inl h
        · exact .inr h
    · split at h
      · split at h
        · exact .inr (List.mem_cons_of_mem _ h)
        · rcases List.mem_cons.mp h with h | h
          · exact .inl h
          · exact .inr (List.mem_cons_of_mem _ h)
      · rcases List.mem_cons.mp h with h | h
        · exact .inr (by simp [h])
        · rcases ih h with h | h
          · exact .inl h
          · exact .inr (List.mem_cons_of_mem _ h)

theorem Memory.write_wf {m : List Cell} (hm : Memory.wf m = true) (a : Nat) (w : Word) :
    Memory.wf (Memory.write m a w) = true := by
  induction m with
  | nil => by_cases hw : w = unlistedWord <;> simp_all [Memory.write, Memory.wf]
  | cons c rest ih =>
    obtain ⟨k, x⟩ := c
    obtain ⟨hx, hlt, hr⟩ := Memory.wf_cons.mp hm
    rw [Memory.write]
    split
    · split
      · exact hm
      · rename_i h1 h2
        refine Memory.wf_cons.mpr ⟨h2, fun c hc => ?_, hm⟩
        rcases List.mem_cons.mp hc with rfl | hc
        · exact h1
        · have := hlt c hc; omega
    · split
      · rename_i h2
        split
        · exact hr
        · rename_i hw
          exact Memory.wf_cons.mpr ⟨hw, fun c hc => h2 ▸ hlt c hc, hr⟩
      · rename_i h1 h2
        refine Memory.wf_cons.mpr ⟨hx, fun c hc => ?_, ih hr⟩
        rcases Memory.mem_write hc with rfl | hc
        · show k < a; omega
        · exact hlt c hc

theorem Memory.write_below {m : List Cell} {n a : Nat} (hm : Memory.below m n = true) (ha : a < n) (w : Word) :
    Memory.below (Memory.write m a w) n = true := by
  simp only [Memory.below, List.all_eq_true, decide_eq_true_eq] at *
  intro c hc
  rcases Memory.mem_write hc with rfl | hc
  · exact ha
  · exact hm c hc

theorem Memory.below_mono {m : List Cell} {n k : Nat} (hm : Memory.below m n = true) (h : n ≤ k) :
    Memory.below m k = true := by
  simp only [Memory.below, List.all_eq_true, decide_eq_true_eq] at *
  intro c hc
  have := hm c hc
  omega

/-- The cells of an image lie at the addresses of the image. -/
theorem Memory.mem_ofImage {ws : List Word} {k : Nat} {c : Cell} (h : c ∈ Memory.ofImage ws k) :
    k ≤ c.1 ∧ c.1 < k + ws.length := by
  induction ws generalizing k with
  | nil => simp [Memory.ofImage] at h
  | cons w ws ih =>
    rw [Memory.ofImage] at h
    simp only [List.length_cons]
    split at h
    · have := ih h; omega
    · rcases List.mem_cons.mp h with rfl | h
      · simp
      · have := ih h; omega

theorem Memory.ofImage_wf (ws : List Word) (k : Nat) : Memory.wf (Memory.ofImage ws k) = true := by
  induction ws generalizing k with
  | nil => rfl
  | cons w ws ih =>
    rw [Memory.ofImage]
    split
    · exact ih _
    · rename_i hw
      exact Memory.wf_cons.mpr ⟨hw, fun c hc => by have := Memory.mem_ofImage hc; omega, ih _⟩

theorem Memory.ofImage_below (ws : List Word) : Memory.below (Memory.ofImage ws 0) ws.length = true := by
  simp only [Memory.below, List.all_eq_true, decide_eq_true_eq]
  intro c hc
  have := Memory.mem_ofImage hc
  omega

/-- Word `a` of an image stands at address `k + a`. -/
theorem Memory.read_ofImage (ws : List Word) (k a : Nat) :
    Memory.read (Memory.ofImage ws k) (k + a) = ws.getD a 0 := by
  induction ws generalizing k a with
  | nil => rfl
  | cons w ws ih =>
    rw [Memory.ofImage]
    cases a with
    | zero =>
      split
      · rename_i hw
        rw [Memory.read_eq_zero fun c hc => by have := Memory.mem_ofImage hc; omega]
        simp [hw, unlistedWord]
      · simp [Memory.read]
    | succ a =>
      have h := ih (k + 1) a
      rw [show k + 1 + a = k + (a + 1) by omega] at h
      split
      · simpa using h
      · rw [Memory.read, if_neg (by omega)]
        simpa using h

@[simp] theorem Memory.words_length (m : List Cell) (k n : Nat) : (Memory.words m k n).length = n := by
  induction n generalizing k with
  | zero => rfl
  | succ n ih => simp [Memory.words, ih]

theorem Memory.words_getD (m : List Cell) (k n j : Nat) (h : j < n) :
    (Memory.words m k n).getD j 0 = Memory.read m (k + j) := by
  induction n generalizing k j with
  | zero => omega
  | succ n ih =>
    cases j with
    | zero => simp [Memory.words]
    | succ j =>
      have := ih (k + 1) j (by omega)
      rw [show k + 1 + j = k + (j + 1) by omega] at this
      simpa [Memory.words] using this

/-- Two memories in canonical form that read alike at every address are the same list. -/
theorem Memory.eq_of_read {m m' : List Cell} (hm : Memory.wf m = true) (hm' : Memory.wf m' = true)
    (h : ∀ a, Memory.read m a = Memory.read m' a) : m = m' := by
  induction m generalizing m' with
  | nil =>
    cases m' with
    | nil => rfl
    | cons d rest' =>
      obtain ⟨b, y⟩ := d
      have := h b
      simp [Memory.read] at this
      exact absurd this.symm (Memory.wf_cons.mp hm').1
  | cons c rest ih =>
    obtain ⟨a, x⟩ := c
    obtain ⟨hx, hlt, hr⟩ := Memory.wf_cons.mp hm
    cases m' with
    | nil =>
      have := h a
      simp [Memory.read] at this
      exact absurd this hx
    | cons d rest' =>
      obtain ⟨b, y⟩ := d
      obtain ⟨hy, hlt', hr'⟩ := Memory.wf_cons.mp hm'
      have hza : ∀ j, j ≤ a → Memory.read rest j = 0 := fun j hj =>
        Memory.read_eq_zero fun c hc => by have := hlt c hc; omega
      have hzb : ∀ j, j ≤ b → Memory.read rest' j = 0 := fun j hj =>
        Memory.read_eq_zero fun c hc => by have := hlt' c hc; omega
      have hab : a = b := by
        rcases Nat.lt_trichotomy a b with hl | he | hg
        · have := h a
          simp [Memory.read, show a ≠ b by omega, hzb a (by omega)] at this
          exact absurd this hx
        · exact he
        · have := h b
          simp [Memory.read, show b ≠ a by omega, hza b (by omega)] at this
          exact absurd this.symm hy
      subst hab
      have hxy : x = y := by simpa [Memory.read] using h a
      subst hxy
      congr 1
      refine ih hr hr' fun j => ?_
      by_cases hj : j = a
      · rw [hj, hza a (by omega), hzb a (by omega)]
      · simpa [Memory.read, hj] using h j

end Sys2Proof.Machine
end

