-- ==== Sys2Proof/Laws/State.lean ====
section
/-! SUPPORT. The fields of the state after each update, one lemma per field and update, so that no later proof unfolds a
record update. -/

namespace Sys2Proof.Machine

@[simp] theorem State.setMem_mem (x : List Cell) (s : State) : (s.setMem x).mem = x := rfl
@[simp] theorem State.setMem_len (x : List Cell) (s : State) : (s.setMem x).len = s.len := rfl
@[simp] theorem State.setMem_ip (x : List Cell) (s : State) : (s.setMem x).ip = s.ip := rfl
@[simp] theorem State.setMem_inq (x : List Cell) (s : State) : (s.setMem x).inq = s.inq := rfl
@[simp] theorem State.setMem_outq (x : List Cell) (s : State) : (s.setMem x).outq = s.outq := rfl
@[simp] theorem State.setMem_status (x : List Cell) (s : State) : (s.setMem x).status = s.status := rfl
@[simp] theorem State.setMem_cause (x : List Cell) (s : State) : (s.setMem x).cause = s.cause := rfl
@[simp] theorem State.setMem_fkind (x : List Cell) (s : State) : (s.setMem x).fkind = s.fkind := rfl
@[simp] theorem State.setMem_fip (x : List Cell) (s : State) : (s.setMem x).fip = s.fip := rfl
@[simp] theorem State.setMem_finfo (x : List Cell) (s : State) : (s.setMem x).finfo = s.finfo := rfl

@[simp] theorem State.setIp_mem (x : Word) (s : State) : (s.setIp x).mem = s.mem := rfl
@[simp] theorem State.setIp_len (x : Word) (s : State) : (s.setIp x).len = s.len := rfl
@[simp] theorem State.setIp_ip (x : Word) (s : State) : (s.setIp x).ip = x := rfl
@[simp] theorem State.setIp_inq (x : Word) (s : State) : (s.setIp x).inq = s.inq := rfl
@[simp] theorem State.setIp_outq (x : Word) (s : State) : (s.setIp x).outq = s.outq := rfl
@[simp] theorem State.setIp_status (x : Word) (s : State) : (s.setIp x).status = s.status := rfl
@[simp] theorem State.setIp_cause (x : Word) (s : State) : (s.setIp x).cause = s.cause := rfl
@[simp] theorem State.setIp_fkind (x : Word) (s : State) : (s.setIp x).fkind = s.fkind := rfl
@[simp] theorem State.setIp_fip (x : Word) (s : State) : (s.setIp x).fip = s.fip := rfl
@[simp] theorem State.setIp_finfo (x : Word) (s : State) : (s.setIp x).finfo = s.finfo := rfl

@[simp] theorem State.setInq_mem (x : List Word) (s : State) : (s.setInq x).mem = s.mem := rfl
@[simp] theorem State.setInq_len (x : List Word) (s : State) : (s.setInq x).len = s.len := rfl
@[simp] theorem State.setInq_ip (x : List Word) (s : State) : (s.setInq x).ip = s.ip := rfl
@[simp] theorem State.setInq_inq (x : List Word) (s : State) : (s.setInq x).inq = x := rfl
@[simp] theorem State.setInq_outq (x : List Word) (s : State) : (s.setInq x).outq = s.outq := rfl
@[simp] theorem State.setInq_status (x : List Word) (s : State) : (s.setInq x).status = s.status := rfl
@[simp] theorem State.setInq_cause (x : List Word) (s : State) : (s.setInq x).cause = s.cause := rfl
@[simp] theorem State.setInq_fkind (x : List Word) (s : State) : (s.setInq x).fkind = s.fkind := rfl
@[simp] theorem State.setInq_fip (x : List Word) (s : State) : (s.setInq x).fip = s.fip := rfl
@[simp] theorem State.setInq_finfo (x : List Word) (s : State) : (s.setInq x).finfo = s.finfo := rfl

@[simp] theorem State.setOutq_mem (x : List Word) (s : State) : (s.setOutq x).mem = s.mem := rfl
@[simp] theorem State.setOutq_len (x : List Word) (s : State) : (s.setOutq x).len = s.len := rfl
@[simp] theorem State.setOutq_ip (x : List Word) (s : State) : (s.setOutq x).ip = s.ip := rfl
@[simp] theorem State.setOutq_inq (x : List Word) (s : State) : (s.setOutq x).inq = s.inq := rfl
@[simp] theorem State.setOutq_outq (x : List Word) (s : State) : (s.setOutq x).outq = x := rfl
@[simp] theorem State.setOutq_status (x : List Word) (s : State) : (s.setOutq x).status = s.status := rfl
@[simp] theorem State.setOutq_cause (x : List Word) (s : State) : (s.setOutq x).cause = s.cause := rfl
@[simp] theorem State.setOutq_fkind (x : List Word) (s : State) : (s.setOutq x).fkind = s.fkind := rfl
@[simp] theorem State.setOutq_fip (x : List Word) (s : State) : (s.setOutq x).fip = s.fip := rfl
@[simp] theorem State.setOutq_finfo (x : List Word) (s : State) : (s.setOutq x).finfo = s.finfo := rfl

@[simp] theorem State.setStatus_mem (x : Status) (s : State) : (s.setStatus x).mem = s.mem := rfl
@[simp] theorem State.setStatus_len (x : Status) (s : State) : (s.setStatus x).len = s.len := rfl
@[simp] theorem State.setStatus_ip (x : Status) (s : State) : (s.setStatus x).ip = s.ip := rfl
@[simp] theorem State.setStatus_inq (x : Status) (s : State) : (s.setStatus x).inq = s.inq := rfl
@[simp] theorem State.setStatus_outq (x : Status) (s : State) : (s.setStatus x).outq = s.outq := rfl
@[simp] theorem State.setStatus_status (x : Status) (s : State) : (s.setStatus x).status = x := rfl
@[simp] theorem State.setStatus_cause (x : Status) (s : State) : (s.setStatus x).cause = s.cause := rfl
@[simp] theorem State.setStatus_fkind (x : Status) (s : State) : (s.setStatus x).fkind = s.fkind := rfl
@[simp] theorem State.setStatus_fip (x : Status) (s : State) : (s.setStatus x).fip = s.fip := rfl
@[simp] theorem State.setStatus_finfo (x : Status) (s : State) : (s.setStatus x).finfo = s.finfo := rfl

end Sys2Proof.Machine
end

