-- ==== Sys2Proof/Laws/Ops.lean ====
section
/-! SUPPORT. One lemma per shared operation that says everything it can do; later proofs cite these and do not unfold
the operations. -/

namespace Sys2Proof.Machine

/-! ### Fields of a fault entry and of the updates of Safety.lean -/

@[simp] theorem takeFault_mem (e : FatalError) (s : State) : (takeFault e s).mem = s.mem := rfl
@[simp] theorem takeFault_len (e : FatalError) (s : State) : (takeFault e s).len = s.len := rfl
@[simp] theorem takeFault_ip (e : FatalError) (s : State) : (takeFault e s).ip = s.ip := rfl
@[simp] theorem takeFault_inq (e : FatalError) (s : State) : (takeFault e s).inq = s.inq := rfl
@[simp] theorem takeFault_outq (e : FatalError) (s : State) : (takeFault e s).outq = s.outq := rfl
@[simp] theorem takeFault_status (e : FatalError) (s : State) : (takeFault e s).status = .faulted := rfl
@[simp] theorem takeFault_cause (e : FatalError) (s : State) : (takeFault e s).cause = causeCode e := rfl
@[simp] theorem takeFault_fkind (e : FatalError) (s : State) : (takeFault e s).fkind = kindCode e := rfl
@[simp] theorem takeFault_fip (e : FatalError) (s : State) : (takeFault e s).fip = s.ip := rfl
@[simp] theorem takeFault_finfo (e : FatalError) (s : State) : (takeFault e s).finfo = infoWord e := rfl

@[simp] theorem stored_mem (s : State) (d : Param) (r : Word) :
    (stored s d r).mem = Memory.write s.mem d.raw.toNat r := rfl
@[simp] theorem stored_len (s : State) (d : Param) (r : Word) : (stored s d r).len = s.len := rfl
@[simp] theorem stored_ip (s : State) (d : Param) (r : Word) : (stored s d r).ip = s.ip + 4 := rfl
@[simp] theorem stored_inq (s : State) (d : Param) (r : Word) : (stored s d r).inq = s.inq := rfl
@[simp] theorem stored_outq (s : State) (d : Param) (r : Word) : (stored s d r).outq = s.outq := rfl
@[simp] theorem stored_status (s : State) (d : Param) (r : Word) : (stored s d r).status = s.status := rfl
@[simp] theorem stored_cause (s : State) (d : Param) (r : Word) : (stored s d r).cause = s.cause := rfl
@[simp] theorem stored_fkind (s : State) (d : Param) (r : Word) : (stored s d r).fkind = s.fkind := rfl
@[simp] theorem stored_fip (s : State) (d : Param) (r : Word) : (stored s d r).fip = s.fip := rfl
@[simp] theorem stored_finfo (s : State) (d : Param) (r : Word) : (stored s d r).finfo = s.finfo := rfl

/-! ### Bounds and accesses -/

theorem inBounds_iff {s : State} {a : Word} : inBounds s a = true ↔ 0 ≤ a.toInt ∧ a.toInt < (s.len : Int) := by
  simp [inBounds]

/-- The bounds check reads `LEN` and nothing else of the state (R31). -/
theorem inBounds_congr {s t : State} (h : s.len = t.len) (a : Word) : inBounds s a = inBounds t a := by
  simp [inBounds, h]

/-- A Word that is not negative is its own address. -/
theorem toInt_eq_toNat {a : Word} (h : 0 ≤ a.toInt) : a.toInt = (a.toNat : Int) := by
  rw [BitVec.toInt_eq_toNat_cond] at *
  have := a.isLt
  split at h <;> simp_all
  omega

theorem toNat_lt_of_inBounds {s : State} {a : Word} (h : inBounds s a = true) : a.toNat < s.len := by
  obtain ⟨h0, h1⟩ := inBounds_iff.mp h
  rw [toInt_eq_toNat h0] at h1
  exact_mod_cast h1

theorem memRead_eq_ok {k : AccessKind} {a w : Word} {s : State} :
    memRead k a s = .ok w ↔ inBounds s a = true ∧ s.wordAt a = w := by
  unfold memRead
  split <;> simp_all

theorem memRead_eq_error {k : AccessKind} {a : Word} {s : State} {e : FatalError} :
    memRead k a s = .error e ↔ inBounds s a = false ∧ e = .addressingError k a := by
  unfold memRead
  split
  · simp_all
  · simp_all only [Except.error.injEq, Bool.not_eq_true, eq_comm (b := e), true_and]

theorem memWrite_eq_ok {a v : Word} {s t : State} :
    memWrite a v s = .ok t ↔ inBounds s a = true ∧ s.setMem (Memory.write s.mem a.toNat v) = t := by
  unfold memWrite
  split <;> simp_all

theorem memWrite_eq_error {a v : Word} {s : State} {e : FatalError} :
    memWrite a v s = .error e ↔ inBounds s a = false ∧ e = .addressingError .destWrite a := by
  unfold memWrite
  split
  · simp_all
  · simp_all only [Except.error.injEq, Bool.not_eq_true, eq_comm (b := e), true_and]

/-! ### Operands -/

theorem val_eq_ok {p : Param} {s : State} {w : Word} :
    val p s = .ok w ↔ Readable s p ∧ operandWord s p = w := by
  rcases p with ⟨_ | _, raw⟩ <;> simp [val, Readable, operandWord, memRead_eq_ok]

theorem val_eq_error {p : Param} {s : State} {e : FatalError} :
    val p s = .error e ↔ ¬ Readable s p ∧ e = .addressingError .operandRead p.raw := by
  rcases p with ⟨_ | _, raw⟩ <;> simp [val, Readable, memRead_eq_error]

/-- A parameter resolves to its operand Word, or the step faults on its raw Word. -/
theorem val_cases (p : Param) (s : State) :
    (Readable s p ∧ val p s = .ok (operandWord s p)) ∨
    (¬ Readable s p ∧ val p s = .error (.addressingError .operandRead p.raw)) := by
  by_cases h : Readable s p
  · exact .inl ⟨h, val_eq_ok.mpr ⟨h, rfl⟩⟩
  · exact .inr ⟨h, val_eq_error.mpr ⟨h, rfl⟩⟩

/-! ### The ALU -/

theorem outOfRange_eq_false {z : Int} : outOfRange z = false ↔ InWordRange z := by
  simp [outOfRange, InWordRange]

theorem outOfRange_eq_true {z : Int} : outOfRange z = true ↔ z < Config.wMin ∨ Config.wMax < z := by
  simp [outOfRange]

/-- An integer in the Word range is the value of its own Word. -/
theorem toInt_ofInt_of_inWordRange {z : Int} (h : InWordRange z) : (BitVec.ofInt 64 z).toInt = z := by
  obtain ⟨h1, h2⟩ := h
  unfold Config.wMin at h1
  unfold Config.wMax at h2
  rw [BitVec.toInt_ofInt]
  exact Int.bmod_eq_of_le (by omega) (by omega)

theorem aluChecked_eq_ok {op : AluOp} {k : ArithKind} {a b r : Word} :
    aluChecked op k a b = .ok r ↔ (alu op a b).overflow = false ∧ aluWord op a b = r := by
  unfold aluChecked
  split <;> simp_all

theorem aluChecked_eq_error {op : AluOp} {k : ArithKind} {a b : Word} {e : FatalError} :
    aluChecked op k a b = .error e ↔ (alu op a b).overflow = true ∧ e = .arithmeticOverflow k := by
  unfold aluChecked
  split
  · simp_all only [Except.error.injEq, true_and]
    exact eq_comm
  · simp_all

@[simp] theorem nonZero_eq (c : Word) : nonZero c = decide (c ≠ 0) := by
  by_cases h : c = 0 <;> simp [nonZero, alu, truthValue, h]

/-! ### The two shapes of instruction with two read parameters -/

/-- Everything an instruction of format F3RRW can do (R71, R76, R79): the faults in their order, or the store. -/
theorem binaryStore_cases (f : Word → Word → Except FatalError Word) (p1 p2 d : Param) (s : State) :
    (¬ Readable s p1 ∧ binaryStore f p1 p2 d s = .error (.addressingError .operandRead p1.raw)) ∨
    (Readable s p1 ∧ ¬ Readable s p2 ∧ binaryStore f p1 p2 d s = .error (.addressingError .operandRead p2.raw)) ∨
    (Readable s p1 ∧ Readable s p2 ∧ ∃ e, f (operandWord s p1) (operandWord s p2) = .error e ∧
      binaryStore f p1 p2 d s = .error e) ∨
    (Readable s p1 ∧ Readable s p2 ∧ ∃ r, f (operandWord s p1) (operandWord s p2) = .ok r ∧
      inBounds s d.raw = false ∧ binaryStore f p1 p2 d s = .error (.addressingError .destWrite d.raw)) ∨
    (Readable s p1 ∧ Readable s p2 ∧ ∃ r, f (operandWord s p1) (operandWord s p2) = .ok r ∧
      inBounds s d.raw = true ∧ binaryStore f p1 p2 d s = .ok (stored s d r)) := by
  obtain ⟨h1, e1⟩ | ⟨h1, e1⟩ := val_cases p1 s
  · obtain ⟨h2, e2⟩ | ⟨h2, e2⟩ := val_cases p2 s
    · rcases hf : f (operandWord s p1) (operandWord s p2) with e | r
      · refine .inr (.inr (.inl ⟨h1, h2, e, rfl, ?_⟩))
        simp [binaryStore, e1, e2, hf, bind, Except.bind]
      · cases hb : inBounds s d.raw
        · refine .inr (.inr (.inr (.inl ⟨h1, h2, r, rfl, rfl, ?_⟩)))
          simp [binaryStore, e1, e2, hf, storeDest, destAddr, memWrite, hb, bind, Except.bind]
        · refine .inr (.inr (.inr (.inr ⟨h1, h2, r, rfl, rfl, ?_⟩)))
          simp [binaryStore, e1, e2, hf, storeDest, destAddr, memWrite, hb, bind, Except.bind, pure, Except.pure,
            advance, stored, State.setIp, State.setMem]
    · refine .inr (.inl ⟨h1, h2, ?_⟩)
      simp [binaryStore, e1, e2, bind, Except.bind]
  · refine .inl ⟨h1, ?_⟩
    simp [binaryStore, e1, bind, Except.bind]

/-- Everything a conditional jump can do (R76, R78): the faults in their order, or the new `ip`. -/
theorem conditionalJump_cases (taken : Word → Bool) (p1 p2 : Param) (s : State) :
    (¬ Readable s p1 ∧ conditionalJump taken p1 p2 s = .error (.addressingError .operandRead p1.raw)) ∨
    (Readable s p1 ∧ ¬ Readable s p2 ∧
      conditionalJump taken p1 p2 s = .error (.addressingError .operandRead p2.raw)) ∨
    (Readable s p1 ∧ Readable s p2 ∧ conditionalJump taken p1 p2 s =
      .ok (s.setIp (if taken (operandWord s p1) = true then operandWord s p2 else s.ip + 3))) := by
  obtain ⟨h1, e1⟩ | ⟨h1, e1⟩ := val_cases p1 s
  · obtain ⟨h2, e2⟩ | ⟨h2, e2⟩ := val_cases p2 s
    · refine .inr (.inr ⟨h1, h2, ?_⟩)
      cases ht : taken (operandWord s p1) <;>
        simp [conditionalJump, e1, e2, ht, bind, Except.bind, pure, Except.pure, advance]
    · refine .inr (.inl ⟨h1, h2, ?_⟩)
      simp [conditionalJump, e1, e2, bind, Except.bind]
  · refine .inl ⟨h1, ?_⟩
    simp [conditionalJump, e1, bind, Except.bind]

end Sys2Proof.Machine
end

