-- ==== Sys2Proof/Laws/PerInstr.lean ====
section
/-! SUPPORT. The families of statements about every instruction as syntax, one lemma per constructor of Instr. -/

namespace Sys2Proof.Laws

/-- The number of Words of an encoding is 1 + the parameter count, by opcode alone (R50, R62). -/
def EncodedLength.Statement (i : Instr) : Prop := (encode i).length = 1 + paramCount i.operation

theorem EncodedLength.add (p1 p2 d : Param) : EncodedLength.Statement (.add p1 p2 d) := encode_length _
theorem EncodedLength.multiply (p1 p2 d : Param) : EncodedLength.Statement (.multiply p1 p2 d) := encode_length _
theorem EncodedLength.readInput (d : Param) : EncodedLength.Statement (.readInput d) := encode_length _
theorem EncodedLength.writeOutput (p1 : Param) : EncodedLength.Statement (.writeOutput p1) := encode_length _
theorem EncodedLength.jumpIfTrue (p1 p2 : Param) : EncodedLength.Statement (.jumpIfTrue p1 p2) := encode_length _
theorem EncodedLength.jumpIfFalse (p1 p2 : Param) : EncodedLength.Statement (.jumpIfFalse p1 p2) := encode_length _
theorem EncodedLength.lessThan (p1 p2 d : Param) : EncodedLength.Statement (.lessThan p1 p2 d) := encode_length _
theorem EncodedLength.equals (p1 p2 d : Param) : EncodedLength.Statement (.equals p1 p2 d) := encode_length _
theorem EncodedLength.halt : EncodedLength.Statement .halt := encode_length _

/-- The instruction value carries the mode code of each parameter at that parameter's decimal position, and nothing
above the last one (R51, R55, R64). -/
def HeadDigits.Statement (i : Instr) : Prop :=
  encodeHead i < 10 ^ (paramCount i.operation + 2) ∧ encodeHead i % 100 = opMap i.operation ∧
    ∀ j, j < paramCount i.operation → modeDigit (encodeHead i) (j + 1) = (i.params.map fun p => modeCode p.mode).getD j 0

theorem HeadDigits.of_three {i : Instr} {p1 p2 p3 : Param} (hp : i.params = [p1, p2, p3]) : HeadDigits.Statement i := by
  have hn := params_length i
  rw [hp] at hn
  have hl := encodeHead_lt i
  have hm := opMap_lt i.operation
  refine ⟨by rw [Nat.pow_add]; omega, encodeHead_mod i, fun j hj => ?_⟩
  have c1 := modeCode_lt p1.mode
  have c2 := modeCode_lt p2.mode
  have c3 := modeCode_lt p3.mode
  have he : encodeHead i = opMap i.operation + 100 * modeCode p1.mode + 1000 * modeCode p2.mode
      + 10000 * modeCode p3.mode := by simp [encodeHead, hp, modeDigits]; omega
  have hj : j < 3 := by simpa [← hn] using hj
  interval_cases j <;> simp [modeDigit, digit, hp, he] <;> omega

theorem HeadDigits.of_two {i : Instr} {p1 p2 : Param} (hp : i.params = [p1, p2]) : HeadDigits.Statement i := by
  have hn := params_length i
  rw [hp] at hn
  have hl := encodeHead_lt i
  have hm := opMap_lt i.operation
  refine ⟨by rw [Nat.pow_add]; omega, encodeHead_mod i, fun j hj => ?_⟩
  have c1 := modeCode_lt p1.mode
  have c2 := modeCode_lt p2.mode
  have he : encodeHead i = opMap i.operation + 100 * modeCode p1.mode + 1000 * modeCode p2.mode := by
    simp [encodeHead, hp, modeDigits]; omega
  have hj : j < 2 := by simpa [← hn] using hj
  interval_cases j <;> simp [modeDigit, digit, hp, he] <;> omega

theorem HeadDigits.of_one {i : Instr} {p1 : Param} (hp : i.params = [p1]) : HeadDigits.Statement i := by
  have hn := params_length i
  rw [hp] at hn
  have hl := encodeHead_lt i
  have hm := opMap_lt i.operation
  refine ⟨by rw [Nat.pow_add]; omega, encodeHead_mod i, fun j hj => ?_⟩
  have c1 := modeCode_lt p1.mode
  have he : encodeHead i = opMap i.operation + 100 * modeCode p1.mode := by simp [encodeHead, hp, modeDigits]
  have hj : j < 1 := by simpa [← hn] using hj
  interval_cases j
  simp [modeDigit, digit, hp, he]
  omega

theorem HeadDigits.add (p1 p2 d : Param) : HeadDigits.Statement (.add p1 p2 d) := HeadDigits.of_three rfl
theorem HeadDigits.multiply (p1 p2 d : Param) : HeadDigits.Statement (.multiply p1 p2 d) := HeadDigits.of_three rfl
theorem HeadDigits.readInput (d : Param) : HeadDigits.Statement (.readInput d) := HeadDigits.of_one rfl
theorem HeadDigits.writeOutput (p1 : Param) : HeadDigits.Statement (.writeOutput p1) := HeadDigits.of_one rfl
theorem HeadDigits.jumpIfTrue (p1 p2 : Param) : HeadDigits.Statement (.jumpIfTrue p1 p2) := HeadDigits.of_two rfl
theorem HeadDigits.jumpIfFalse (p1 p2 : Param) : HeadDigits.Statement (.jumpIfFalse p1 p2) := HeadDigits.of_two rfl
theorem HeadDigits.lessThan (p1 p2 d : Param) : HeadDigits.Statement (.lessThan p1 p2 d) := HeadDigits.of_three rfl
theorem HeadDigits.equals (p1 p2 d : Param) : HeadDigits.Statement (.equals p1 p2 d) := HeadDigits.of_three rfl
theorem HeadDigits.halt : HeadDigits.Statement .halt :=
  ⟨by decide, by decide, fun j hj => by simp [Instr.operation, paramCount] at hj⟩

end Sys2Proof.Laws
end

