-- ==== Sys2Proof/Laws/Step.lean ====
section
/-! SUPPORT. What executing an instruction can do (`Effect`, `exec_effect`) and what a step can do (`step_cases`): the
two inversion lemmas from which frames and invariants follow without unfolding the meanings again. -/

namespace Sys2Proof.Machine

/-- The next states of an instruction: the fault entry, or one of the five things an instruction of the table of R77
can do, each tied to the instructions that do it. -/
inductive Effect (i : Instr) (s : State) : State → Prop where
  | fault (e : FatalError) : Effect i s (takeFault e s)
  | store (d : Param) (r : Word) (hd : i.dest? = some d) (hi : i.operation ≠ .readInput)
      (hb : inBounds s d.raw = true) : Effect i s (stored s d r)
  | input (d : Param) (x : Word) (rest : List Word) (hi : i = .readInput d) (hq : s.inq = x :: rest)
      (hb : inBounds s d.raw = true) :
      Effect i s { s with mem := Memory.write s.mem d.raw.toNat x, inq := rest, ip := s.ip + 2 }
  | output (p : Param) (hi : i = .writeOutput p) (hr : Readable s p) :
      Effect i s { s with outq := s.outq ++ [operandWord s p], ip := s.ip + 2 }
  | jump (w : Word) (hi : i.operation = .jumpIfTrue ∨ i.operation = .jumpIfFalse) : Effect i s (s.setIp w)
  | halt (hi : i = .halt) : Effect i s (s.setStatus .halted)

theorem complete_eq_next {s t : State} {r : Except FatalError State} :
    complete s r = .next t ↔ r = .ok t ∨ ∃ e, r = .error e ∧ takeFault e s = t := by
  cases r <;> simp [complete]

theorem binaryStore_effect {f : Word → Word → Except FatalError Word} {p1 p2 d : Param} {s t : State} {i : Instr}
    (hd : i.dest? = some d) (hi : i.operation ≠ .readInput) (h : complete s (binaryStore f p1 p2 d s) = .next t) :
    Effect i s t := by
  obtain h | ⟨e, -, rfl⟩ := complete_eq_next.mp h
  · obtain ⟨_, he⟩ | ⟨_, _, he⟩ | ⟨_, _, e, _, he⟩ | ⟨_, _, r, _, _, he⟩ | ⟨_, _, r, _, hb, he⟩ :=
      binaryStore_cases f p1 p2 d s <;> rw [he] at h
    · simp at h
    · simp at h
    · simp at h
    · simp at h
    · obtain rfl := Except.ok.inj h
      exact .store d r hd hi hb
  · exact .fault e

theorem conditionalJump_effect {taken : Word → Bool} {p1 p2 : Param} {s t : State} {i : Instr}
    (hi : i.operation = .jumpIfTrue ∨ i.operation = .jumpIfFalse)
    (h : complete s (conditionalJump taken p1 p2 s) = .next t) : Effect i s t := by
  obtain h | ⟨e, -, rfl⟩ := complete_eq_next.mp h
  · obtain ⟨_, he⟩ | ⟨_, _, he⟩ | ⟨_, _, he⟩ := conditionalJump_cases taken p1 p2 s <;> rw [he] at h
    · simp at h
    · simp at h
    · obtain rfl := Except.ok.inj h
      exact .jump _ hi
  · exact .fault e

/-- read-input, case by case in the order of its checks (R95). -/
theorem execReadInput_cases (d : Param) (s : State) :
    (s.inq = [] ∧ execReadInput d s = .next (takeFault .inputExhaustion s)) ∨
    (∃ x rest, s.inq = x :: rest ∧ inBounds s d.raw = false ∧
      execReadInput d s = .next (takeFault (.addressingError .destWrite d.raw) s)) ∨
    (∃ x rest, s.inq = x :: rest ∧ inBounds s d.raw = true ∧ execReadInput d s =
      .next { s with mem := Memory.write s.mem d.raw.toNat x, inq := rest, ip := s.ip + 2 }) := by
  rcases hq : s.inq with _ | ⟨x, rest⟩
  · exact .inl ⟨rfl, by simp [execReadInput, hq, complete]⟩
  · cases hb : inBounds s d.raw
    · exact .inr (.inl ⟨x, rest, rfl, rfl, by
        simp [execReadInput, hq, complete, memWrite, destAddr, hb, bind, Except.bind]⟩)
    · exact .inr (.inr ⟨x, rest, rfl, rfl, by
        simp [execReadInput, hq, complete, memWrite, destAddr, hb, bind, Except.bind, pure, Except.pure, advance,
          State.setMem, State.setInq, State.setIp]⟩)

/-- write-output, case by case (R96). -/
theorem execWriteOutput_cases (p : Param) (s : State) :
    (¬ Readable s p ∧ execWriteOutput p s = .next (takeFault (.addressingError .operandRead p.raw) s)) ∨
    (Readable s p ∧ execWriteOutput p s =
      .next { s with outq := s.outq ++ [operandWord s p], ip := s.ip + 2 }) := by
  obtain ⟨h, e⟩ | ⟨h, e⟩ := val_cases p s
  · exact .inr ⟨h, by
      simp [execWriteOutput, e, complete, bind, Except.bind, pure, Except.pure, advance, State.setOutq, State.setIp]⟩
  · exact .inl ⟨h, by simp [execWriteOutput, e, complete, bind, Except.bind]⟩

/-- Everything executing an instruction can do. -/
theorem exec_effect {i : Instr} {s t : State} (h : exec i s = .next t) : Effect i s t := by
  cases i with
  | add p1 p2 d => exact binaryStore_effect rfl (by simp [Instr.operation]) h
  | multiply p1 p2 d => exact binaryStore_effect rfl (by simp [Instr.operation]) h
  | lessThan p1 p2 d => exact binaryStore_effect rfl (by simp [Instr.operation]) h
  | equals p1 p2 d => exact binaryStore_effect rfl (by simp [Instr.operation]) h
  | jumpIfTrue p1 p2 => exact conditionalJump_effect (.inl rfl) h
  | jumpIfFalse p1 p2 => exact conditionalJump_effect (.inr rfl) h
  | readInput d =>
    simp only [exec] at h
    obtain ⟨_, e⟩ | ⟨x, rest, _, _, e⟩ | ⟨x, rest, hq, hb, e⟩ := execReadInput_cases d s <;> rw [e] at h <;>
      obtain rfl := Host.Outcome.next.inj h
    · exact .fault _
    · exact .fault _
    · exact .input d x rest rfl hq hb
  | writeOutput p =>
    simp only [exec] at h
    obtain ⟨_, e⟩ | ⟨hr, e⟩ := execWriteOutput_cases p s <;> rw [e] at h <;> obtain rfl := Host.Outcome.next.inj h
    · exact .fault _
    · exact .output p rfl hr
  | halt =>
    obtain rfl := Host.Outcome.next.inj h
    exact .halt rfl

/-- Executing an instruction always answers a next state: there is no stop among the meanings. -/
theorem exec_next (i : Instr) (s : State) : ∃ t, exec i s = .next t := by
  have hc : ∀ r, ∃ t, complete s r = .next t := fun r => by cases r <;> exact ⟨_, rfl⟩
  cases i <;> first | exact hc _ | exact ⟨_, rfl⟩

/-- Everything a step can do when it answers a next state. -/
theorem step_cases {s t : State} (h : step s = .next t) :
    s.status = .running ∧
      ((∃ e, fetchDecode s = .error e ∧ t = takeFault e s) ∨ (∃ i, fetchDecode s = .ok i ∧ exec i s = .next t)) := by
  unfold step at h
  cases hs : s.status <;> rw [hs] at h <;> simp only [reduceCtorEq] at h
  refine ⟨rfl, ?_⟩
  cases hf : fetchDecode s with
  | error e =>
    rw [hf] at h
    exact .inl ⟨e, rfl, (Host.Outcome.next.inj h).symm⟩
  | ok i =>
    rw [hf] at h
    exact .inr ⟨i, rfl, h⟩

/-- A running machine's step, as its two cases. -/
theorem step_of_running {s : State} (hs : s.status = .running) :
    step s = match fetchDecode s with
      | .error e => .next (takeFault e s)
      | .ok i => exec i s := by
  obtain ⟨mem, len, ip, inq, outq, status, cause, fkind, fip, finfo⟩ := s
  subst hs
  rfl

/-! ### Runs -/

@[simp] theorem runsTo_zero {s t : State} : RunsTo 0 s t ↔ s = t :=
  ⟨fun h => Host.Outcome.next.inj h, fun h => h ▸ rfl⟩

/-- A run of `k + 1` steps is a step and a run of `k`. -/
theorem runsTo_succ {k : Nat} {s t : State} : RunsTo (k + 1) s t ↔ ∃ u, step s = .next u ∧ RunsTo k u t := by
  unfold RunsTo
  simp only [Host.Core.run]
  rw [show Sys2Proof.core.step s = step s from rfl]
  cases step s <;> simp

/-! ### Fetching -/

/-- The Words of a slot: in bounds it is fetched, out of bounds the step faults on its address (R73). -/
theorem fetchSlot_eq_ok {n j : Nat} {s : State} {w : Word} :
    fetchSlot n j s = .ok w ↔
      (j ≤ n ∧ inBounds s (s.ip + BitVec.ofNat 64 j) = true ∧ s.wordAt (s.ip + BitVec.ofNat 64 j) = w) ∨
      (n < j ∧ w = 0) := by
  unfold fetchSlot
  split
  · rename_i h
    simp [memRead_eq_ok, h, show ¬ n < j by omega]
  · rename_i h
    simp [h, show n < j by omega, eq_comm (a := w)]

end Sys2Proof.Machine
end

