-- ==== Sys2Proof/Tests/Slice0.lean ====
section
/-! SUPPORT. The model's own tests. Expected values are those of spec/95_test_vectors.md (the section is named at
each group), or worked out by hand from the rules where it has no such vector. Tests are `test_…`; `witness_…` shows values that meet all
hypotheses of a statement of Certificates/Slice0/Obligations.lean, clause by clause where it has clauses. -/

namespace Sys2Proof.Tests

open Sys2Proof Sys2Proof.Machine

/-- The launch of an image with an input, on a machine of capacity 100 (95_test_vectors.md, section 0). -/
def launched (image input : List Word) : State := launch 100 image [] input State.reset

/-- The next state of an outcome. -/
def nextOf (o : Host.Outcome State Fault Refusal) : Option State :=
  match o with
  | .next t => some t
  | .fault _ => none
  | .refused _ => none

/-- One step of a launch. -/
def stepOnce (image input : List Word) : Option State := nextOf (step (launched image input))

/-- The Words of the Program Store. -/
def memOf (s : State) : List Word := Memory.words s.mem 0 s.len

/-- What a step left: `status`, `ip`, the Program Store and the output. -/
def seen (s : State) : Status × Word × List Word × List Word := (s.status, s.ip, memOf s, s.outq)

/-- What a faulting step left: `cause`, `fkind`, `fip`, `finfo`. -/
def record (s : State) : BitVec 3 × BitVec 3 × Word × Word := (s.cause, s.fkind, s.fip, s.finfo)

/-- A positional parameter. -/
def pos (w : Word) : Param := ⟨.positional, w⟩

/-- An immediate parameter. -/
def imm (w : Word) : Param := ⟨.immediate, w⟩

/-- What the decoder answers, as comparable data. -/
def decoded (ws : List Word) : Option (Instr × List Word) := (decode ws).toOption

/-- Why the decoder rejects, as comparable data. -/
def rejected (ws : List Word) : Option Reject :=
  match decode ws with
  | .error r => some r
  | .ok _ => none

/-! ### WellFormed: an ill-formed term for its one check (R58), for each instruction that has a destination -/

theorem test_wellFormed_refuses_add : (Instr.add (pos 0) (pos 0) (imm 0)).wellFormed = false := by decide
theorem test_wellFormed_refuses_multiply : (Instr.multiply (imm 1) (pos 0) (imm 0)).wellFormed = false := by decide
theorem test_wellFormed_refuses_readInput : (Instr.readInput (imm 0)).wellFormed = false := by decide
theorem test_wellFormed_refuses_lessThan : (Instr.lessThan (imm 1) (imm 2) (imm 0)).wellFormed = false := by decide
theorem test_wellFormed_refuses_equals : (Instr.equals (imm 1) (imm 2) (imm 0)).wellFormed = false := by decide
theorem test_wellFormed_admits_immediate_reads :
    (Instr.add (imm 1) (imm 2) (pos 0)).wellFormed = true ∧ (Instr.writeOutput (imm 1)).wellFormed = true ∧
      (Instr.jumpIfTrue (imm 1) (imm 2)).wellFormed = true ∧ Instr.halt.wellFormed = true := by decide

/-! ### The decoder (95_test_vectors.md, section 2.1) -/

theorem test_decode_add : decoded [1101, 3, 4, 5, 99] = some (.add (imm 3) (imm 4) (pos 5), [99]) := by decide
theorem test_decode_add_high_digit :
    decoded [100001, 0, 0, 0] = some (.add (pos 0) (pos 0) (pos 0), []) := by decide
theorem test_decode_multiply : decoded [1002, 4, 3, 4] = some (.multiply (pos 4) (imm 3) (pos 4), []) := by decide
theorem test_decode_readInput : decoded [1003, 9] = some (.readInput (pos 9), []) := by decide
theorem test_decode_writeOutput : decoded [104, -42] = some (.writeOutput (imm (-42)), []) := by decide
theorem test_decode_jumpIfTrue : decoded [10005, 1, 6] = some (.jumpIfTrue (pos 1) (pos 6), []) := by decide
theorem test_decode_jumpIfFalse : decoded [1006, 4, 3] = some (.jumpIfFalse (pos 4) (imm 3), []) := by decide
theorem test_decode_lessThan : decoded [107, 99, 4, 0] = some (.lessThan (imm 99) (pos 4) (pos 0), []) := by decide
theorem test_decode_equals : decoded [8, 4, 5, 6] = some (.equals (pos 4) (pos 5) (pos 6), []) := by decide
theorem test_decode_halt : decoded [12399] = some (.halt, []) := by decide
theorem test_reject_negative : rejected [-1103, 0, 0, 0] = some (.negativeInstruction (-1103)) := by decide
theorem test_reject_unknown_before_mode : rejected [209, 0] = some (.unknownOpcode 209) := by decide
theorem test_reject_zero : rejected [0] = some (.unknownOpcode 0) := by decide
theorem test_reject_mode_before_target : rejected [12101, 1, 1, 0] = some (.unknownModeDigit 2) := by decide
theorem test_reject_target_before_slots : rejected [11101, 1] = some (.writeTargetImmediate 3) := by decide
theorem test_reject_greatest_word : rejected [9223372036854775807] = some (.unknownModeDigit 1) := by decide
theorem test_reject_missing_slot : rejected [1, 0, 0] = some (.missingSlot 3) := by decide
theorem test_encode_multiply : encode (.multiply (pos 4) (imm 3) (pos 4)) = [1002, 4, 3, 4] := by decide
theorem test_decodeTableWord_add : decodeTableWord 8 101 = some (.add (imm 0) (pos 0) (pos 0)) := by decide
theorem test_decodeTableWord_second_word :
    decodeTableWord 128 (104 + 7 * 2 ^ 64) = some (.writeOutput (imm 7)) := by decide
theorem test_decodeTableWord_rejects : decodeTableWord 8 0 = none := by decide
theorem test_withFetchWord_runs :
    (nextOf (step (State.reset.withFetchWord 256 (1101 + 3 * 2 ^ 64 + 4 * 2 ^ 128 + 1 * 2 ^ 192)))).map seen
      = some (.running, 4, [1101, 7, 4, 1], []) := by decide

/-! ### One step of each instruction (95_test_vectors.md, sections 2.2 to 2.8; the end of the first step) -/

theorem test_add_aliases : (stepOnce [1, 0, 0, 0, 99] []).map seen = some (.running, 4, [2, 0, 0, 0, 99], []) := by
  decide
theorem test_add_reaches_wmin : (stepOnce [1101, -9223372036854775807, -1, 0, 99] []).map memOf =
    some [-9223372036854775808, -9223372036854775807, -1, 0, 99] := by decide
theorem test_multiply_sign : (stepOnce [1102, -7, 6, 0, 99] []).map memOf = some [-42, -7, 6, 0, 99] := by decide
theorem test_multiply_overflow :
    (stepOnce [102, -1, 5, 5, 99, -9223372036854775808] []).map record = some (6, 1, 0, 0) := by decide
theorem test_readInput_own_parameter :
    (stepOnce [3, 1, 99] [-17]).map seen = some (.running, 2, [3, -17, 99], []) := by decide
theorem test_readInput_bad_destination_keeps_input :
    (stepOnce [3, 99] [1]).map (fun s => (record s, s.inq)) = some ((2, 3, 0, 99), [1]) := by decide
theorem test_writeOutput_negative :
    (stepOnce [104, -42, 99] []).map seen = some (.running, 2, [104, -42, 99], [-42]) := by decide
theorem test_writeOutput_negative_address : (stepOnce [4, -1, 99] []).map record = some (2, 2, 0, -1) := by decide
theorem test_jumpIfTrue_negative_target : (stepOnce [1105, 1, -4] []).map (·.ip) = some (-4) := by decide
theorem test_jumpIfTrue_resolves_unused_target :
    (stepOnce [5, 3, 50, 0, 99] []).map record = some (2, 2, 0, 50) := by decide
theorem test_jumpIfFalse_taken : (stepOnce [1106, 0, 5, 104, 7, 99] []).map (·.ip) = some 5 := by decide
theorem test_jumpIfFalse_not_taken : (stepOnce [1106, 3, 5, 104, 7, 99] []).map (·.ip) = some 3 := by decide
theorem test_lessThan_signed :
    (stepOnce [1107, -9223372036854775808, 9223372036854775807, 0, 99] []).map (fun s => (memOf s).head?) =
      some (some 1) := by decide
theorem test_lessThan_strict : (stepOnce [1107, 5, 5, 0, 99] []).map memOf = some [0, 5, 5, 0, 99] := by decide
theorem test_equals_own_operand : (stepOnce [108, -1, 5, 5, 99, -1] []).map memOf = some [108, -1, 5, 5, 99, 1] := by
  decide
theorem test_equals_unequal : (stepOnce [1108, 1, 2, 0, 99] []).map memOf = some [0, 1, 2, 0, 99] := by decide
theorem test_halt : (stepOnce [99, 5] [4, 4]).map (fun s => (seen s, s.inq)) =
    some ((.halted, 0, [99, 5], []), [4, 4]) := by decide

/-! ### The order of faults (section 2.9), the host (2.12), the loader (2.11) -/

theorem test_modes_before_slots : (stepOnce [204] []).map record = some (5, 0, 0, 1) := by decide
theorem test_slots_before_operands : (stepOnce [1, 50, 0] []).map record = some (2, 1, 0, 3) := by decide
theorem test_overflow_before_destination :
    (stepOnce [1101, 9223372036854775807, 1, 70, 99] []).map record = some (6, 0, 0, 0) := by decide
theorem test_input_before_destination : (stepOnce [3, 99] []).map record = some (3, 0, 0, 0) := by decide
theorem test_start_without_load : (stepOnce [] []).map record = some (2, 0, 0, 0) := by decide
theorem test_patch_before_run :
    (nextOf (step (launch 100 [1, 0, 0, 0, 99, 10, 20, 30] [(1, 5), (2, 6)] [] State.reset))).map memOf =
      some [30, 5, 6, 0, 99, 10, 20, 30] := by decide
theorem test_loader_accepts : (parseImage 100 [' ', '-', '1', ',', '-', '0', ',', '0', '0', '7', '\n']).toOption =
    some [-1, 0, 7] := by decide
theorem test_loader_rejects_inner_space : (parseImage 100 ['1', ',', ' ', '2']).toOption = none := by decide
theorem test_loader_rejects_empty_text : (parseImage 100 []).toOption = none := by decide

/-! ### Witnesses: encoding -/

theorem witness_DecodeEncodeRoundTrip :
    (Instr.add (imm (-1)) (pos 9223372036854775807) (pos (-9223372036854775808))).wellFormed = true ∧
      (Instr.multiply (pos 0) (imm 0) (pos 0)).wellFormed = true ∧ (Instr.readInput (pos 7)).wellFormed = true ∧
      (Instr.writeOutput (imm 7)).wellFormed = true ∧ (Instr.jumpIfTrue (imm 1) (pos 2)).wellFormed = true ∧
      (Instr.jumpIfFalse (pos 1) (imm 2)).wellFormed = true ∧ (Instr.lessThan (imm 1) (imm 2) (pos 3)).wellFormed = true ∧
      (Instr.equals (pos 1) (pos 2) (pos 3)).wellFormed = true ∧ Instr.halt.wellFormed = true := by decide

theorem witness_EncodeOfDecodedKeepsExaminedDigits :
    decode (100001 :: [0, 0, 0, 99]) = .ok (.add (pos 0) (pos 0) (pos 0), [99]) ∧ decode (12399 :: []) = .ok (.halt, []) :=
  ⟨rfl, rfl⟩

/-- One value for each of the five classes, at the edges of the classes. -/
theorem witness_EveryInstructionValueIsClassified :
    (-1 : Word).toInt < 0 ∧
    (0 ≤ (0 : Word).toInt ∧ specOperation ((0 : Word).toNat % 100) = none) ∧
    (0 ≤ (21101 : Word).toInt ∧ specOperation ((21101 : Word).toNat % 100) = some .add ∧
      2 ≤ specModeDigit (21101 : Word).toNat 3 ∧ ∀ k, 1 ≤ k → k < 3 → specModeDigit (21101 : Word).toNat k < 2) ∧
    (specOperation ((11101 : Word).toNat % 100) = some .add ∧ specHasDest ((11101 : Word).toNat % 100) = true ∧
      specModeDigit (11101 : Word).toNat (specParamCount ((11101 : Word).toNat % 100)) = 1 ∧
      ∀ j, 1 ≤ j → j ≤ specParamCount ((11101 : Word).toNat % 100) → specModeDigit (11101 : Word).toNat j < 2) ∧
    (specOperation ((1105 : Word).toNat % 100) = some .jumpIfTrue ∧ specHasDest ((1105 : Word).toNat % 100) = false ∧
      ∀ j, 1 ≤ j → j ≤ specParamCount ((1105 : Word).toNat % 100) → specModeDigit (1105 : Word).toNat j < 2) := by
  refine ⟨by decide, by decide, ⟨by decide, by decide, by decide, fun k h1 h2 => ?_⟩,
    ⟨by decide, by decide, by decide, fun j h1 h2 => ?_⟩, ⟨by decide, by decide, fun j h1 h2 => ?_⟩⟩
  · interval_cases k <;> decide
  · have h3 : j ≤ 3 := h2
    interval_cases j <;> decide
  · have h3 : j ≤ 2 := h2
    interval_cases j <;> decide

theorem witness_CanonicalValuesAreTheTwentyEight :
    ∃ h, decodeHead 1108 = .ok h ∧ (1108 : Word).toNat < 10 ^ (paramCount h.op + 2) := ⟨_, rfl, by decide⟩

theorem witness_UnexaminedDigitsHaveNoEffect :
    ∃ h, decodeHead 1 = .ok h ∧ 0 ≤ (100001 : Word).toInt ∧
      (100001 : Word).toNat % 10 ^ (paramCount h.op + 2) = (1 : Word).toNat % 10 ^ (paramCount h.op + 2) :=
  ⟨_, rfl, by decide, by decide⟩

theorem witness_ImmediateDestinationIsRejected :
    (Instr.equals (pos 1) (imm 2) (imm 3)).wellFormed = false ∧ (Instr.readInput (imm 3)).wellFormed = false := by decide

/-! ### Witnesses: the step -/

/-- A launched machine satisfies the invariant: the witness of every hypothesis `Inv`. -/
theorem witness_inv : Inv 100 (launched [1101, 90, 9, 4, 0] []) where
  memWf := by decide
  memBelow := by decide
  lenLe := by decide
  idleFresh := fun h => absurd h (by decide)
  noRecord := fun _ => by decide
  record := fun h => absurd h (by decide)

theorem witness_StepRunsTheDecodedInstruction :
    Config.LegalMaxLen 100 ∧ (launched [1, 0, 0, 0, 99] []).len ≤ 100 ∧
      (launched [1, 0, 0, 0, 99] []).status = .running ∧
      inBounds (launched [1, 0, 0, 0, 99] []) (launched [1, 0, 0, 0, 99] []).ip = true ∧
      decode (codeAt (launched [1, 0, 0, 0, 99] [])) = .ok (.add (pos 0) (pos 0) (pos 0), [99]) ∧
      (launched [1, 0, 0] []).status = .running ∧ inBounds (launched [1, 0, 0] []) (launched [1, 0, 0] []).ip = true ∧
      decode (codeAt (launched [1, 0, 0] [])) = .error (.missingSlot 3) :=
  ⟨by decide, by decide, rfl, by decide, rfl, rfl, by decide, rfl⟩

/-- Both ends: `ip` = -1 and `ip` = `LEN`. -/
theorem witness_FetchOutsideTheProgramFaults :
    ((launched [99] []).setIp (-1)).status = .running ∧
      ¬ (0 ≤ ((launched [99] []).setIp (-1)).ip.toInt ∧
        ((launched [99] []).setIp (-1)).ip.toInt < (((launched [99] []).setIp (-1)).len : Int)) ∧
      ((launched [99] []).setIp 1).status = .running ∧
      ¬ (0 ≤ ((launched [99] []).setIp 1).ip.toInt ∧
        ((launched [99] []).setIp 1).ip.toInt < (((launched [99] []).setIp 1).len : Int)) := by decide

theorem witness_NegativeInstructionFaults :
    (launched [-1] []).status = .running ∧ inBounds (launched [-1] []) (launched [-1] []).ip = true ∧
      ((launched [-1] []).wordAt (launched [-1] []).ip).toInt < 0 := by decide

theorem witness_UnknownOpcodeIsFatal :
    (launched [100] []).status = .running ∧ inBounds (launched [100] []) (launched [100] []).ip = true ∧
      0 ≤ ((launched [100] []).wordAt (launched [100] []).ip).toInt ∧
      ((launched [100] []).wordAt (launched [100] []).ip).toNat % 100 ∉ [1, 2, 3, 4, 5, 6, 7, 8, 99] := by decide

/-- A bad digit on the last parameter, and an immediate destination. -/
theorem witness_ModeErrorsFault :
    ((launched [21101] []).status = .running ∧ inBounds (launched [21101] []) (launched [21101] []).ip = true ∧
      0 ≤ ((launched [21101] []).wordAt (launched [21101] []).ip).toInt ∧
      specKnown (specOpcode (launched [21101] [])) = true ∧ 3 ≤ specParamCount (specOpcode (launched [21101] [])) ∧
      2 ≤ specModeDigit ((launched [21101] []).wordAt (launched [21101] []).ip).toNat 3 ∧
      ∀ k, 1 ≤ k → k < 3 → specModeDigit ((launched [21101] []).wordAt (launched [21101] []).ip).toNat k < 2) ∧
    ((launched [103] []).status = .running ∧ inBounds (launched [103] []) (launched [103] []).ip = true ∧
      0 ≤ ((launched [103] []).wordAt (launched [103] []).ip).toInt ∧
      specKnown (specOpcode (launched [103] [])) = true ∧ specHasDest (specOpcode (launched [103] [])) = true ∧
      specModeDigit ((launched [103] []).wordAt (launched [103] []).ip).toNat
        (specParamCount (specOpcode (launched [103] []))) = 1 ∧
      ∀ j, 1 ≤ j → j ≤ specParamCount (specOpcode (launched [103] [])) →
        specModeDigit ((launched [103] []).wordAt (launched [103] []).ip).toNat j < 2) := by
  refine ⟨⟨rfl, by decide, by decide, by decide, by decide, by decide, fun k h1 h2 => ?_⟩,
    ⟨rfl, by decide, by decide, by decide, by decide, by decide, fun j h1 h2 => ?_⟩⟩
  · interval_cases k <;> decide
  · have h3 : j ≤ 1 := h2
    interval_cases j
    decide

/-- The last slot missing and the first slot missing. -/
theorem witness_MissingParameterSlotFaults :
    Config.LegalMaxLen 100 ∧
    (∃ h, decodeHead ((launched [1, 0, 0] []).wordAt (launched [1, 0, 0] []).ip) = .ok h ∧
      (launched [1, 0, 0] []).len ≤ 100 ∧ (launched [1, 0, 0] []).status = .running ∧
      inBounds (launched [1, 0, 0] []) (launched [1, 0, 0] []).ip = true ∧
      (launched [1, 0, 0] []).len ≤ (launched [1, 0, 0] []).ip.toNat + paramCount h.op) ∧
    (∃ h, decodeHead ((launched [3] [1]).wordAt (launched [3] [1]).ip) = .ok h ∧
      (launched [3] [1]).len ≤ (launched [3] [1]).ip.toNat + paramCount h.op) :=
  ⟨by decide, ⟨_, rfl, by decide, rfl, by decide, by decide⟩, ⟨_, rfl, by decide⟩⟩

/-- One state for each entry of the priority list that can come first, and one without a fault. -/
theorem witness_StepTakesTheFirstFaultOfThePriorityList :
    (launched [1, 0, 0, 0, 99] []).status = .running ∧ firstFault (launched [1, 0, 0, 0, 99] []) = none ∧
    firstFault (launched [] []) = some (.addressingError .fetch 0) ∧
    firstFault (launched [-1] []) = some (.decodeError .negativeInstruction (-1)) ∧
    firstFault (launched [209, 0, 99] []) = some (.decodeError .unknownOpcode 209) ∧
    firstFault (launched [204] []) = some (.modeError .unknownModeDigit 1) ∧
    firstFault (launched [12101, 1, 1, 0, 99] []) = some (.modeError .unknownModeDigit 2) ∧
    firstFault (launched [21101, 1, 1, 0, 99] []) = some (.modeError .unknownModeDigit 3) ∧
    firstFault (launched [11101, 1] []) = some (.modeError .writeTargetImmediate 3) ∧
    firstFault (launched [3] [1]) = some (.addressingError .paramFetch 1) ∧
    firstFault (launched [1, 50] []) = some (.addressingError .paramFetch 2) ∧
    firstFault (launched [1, 50, 0] []) = some (.addressingError .paramFetch 3) ∧
    firstFault (launched [1, 50, 60, 0, 99] []) = some (.addressingError .operandRead 50) ∧
    firstFault (launched [101, 50, 60, 0, 99] []) = some (.addressingError .operandRead 60) ∧
    firstFault (launched [1101, 9223372036854775807, 1, 70, 99] []) = some (.arithmeticOverflow .add) ∧
    firstFault (launched [1102, 4294967296, 2147483648, 0, 99] []) = some (.arithmeticOverflow .mul) ∧
    firstFault (launched [3, 99] []) = some .inputExhaustion ∧
    firstFault (launched [7, 0, 0, 9, 99] []) = some (.addressingError .destWrite 9) := by decide

/-- Two machines that differ in the fault registers alone. -/
theorem witness_StepOnlyWhileRunningAndByFiveParts :
    State.reset.status = .idle ∧ (State.reset.setStatus .halted).status = .halted ∧
    (State.reset.setStatus .faulted).status = .faulted ∧
    (launched [99] []).status = .running ∧ ({ launched [99] [] with finfo := 7 } : State).status = .running ∧
    SameInputs (launched [99] []) { launched [99] [] with finfo := 7 } :=
  ⟨rfl, rfl, rfl, rfl, rfl, ⟨rfl, rfl, rfl, rfl, rfl⟩⟩

theorem witness_RunEndsByHaltOrByFault :
    (∃ t, step (launched [99] []) = .next t ∧ t.status = .halted) ∧
    (∃ t, step (launched [0] []) = .next t ∧ t.status = .faulted) ∧
    (∃ t, step (launched [104, 0] []) = .next t ∧ t.status = .running) :=
  ⟨⟨_, rfl, rfl⟩, ⟨_, rfl, rfl⟩, ⟨_, rfl, rfl⟩⟩

theorem witness_FaultsArePrecise :
    ∃ t, step (launched [3, 99] [1]) = .next t ∧ t.status = .faulted := ⟨_, rfl, rfl⟩

/-- halt; each jump taken; and an instruction that advances. -/
theorem witness_DefaultAdvanceIsExact :
    Config.LegalMaxLen 100 ∧ (launched [1105, 1, 3, 99] []).len ≤ 100 ∧
    (∃ t, fetchDecode (launched [99] []) = .ok .halt ∧ step (launched [99] []) = .next t ∧ t.status ≠ .faulted) ∧
    (∃ t, fetchDecode (launched [1105, 1, 3, 99] []) = .ok (.jumpIfTrue (imm 1) (imm 3)) ∧
      step (launched [1105, 1, 3, 99] []) = .next t ∧ t.status ≠ .faulted ∧
      operandWord (launched [1105, 1, 3, 99] []) (imm 1) ≠ 0) ∧
    (∃ t, fetchDecode (launched [1106, 0, -4, 99] []) = .ok (.jumpIfFalse (imm 0) (imm (-4))) ∧
      step (launched [1106, 0, -4, 99] []) = .next t ∧ t.status ≠ .faulted ∧
      operandWord (launched [1106, 0, -4, 99] []) (imm 0) = 0) ∧
    (∃ t, fetchDecode (launched [1105, 0, 9] []) = .ok (.jumpIfTrue (imm 0) (imm 9)) ∧
      step (launched [1105, 0, 9] []) = .next t ∧ t.status ≠ .faulted ∧
      operandWord (launched [1105, 0, 9] []) (imm 0) = 0) :=
  ⟨by decide, by decide, ⟨_, rfl, rfl, by decide⟩, ⟨_, rfl, rfl, by decide, by decide⟩,
    ⟨_, rfl, rfl, by decide, by decide⟩, ⟨_, rfl, rfl, by decide, by decide⟩⟩

/-- Program P8 (section 2.10): the store lands on the next opcode Word. -/
theorem witness_NextFetchSeesTheStore :
    Config.LegalMaxLen 100 ∧ Inv 100 (launched [1101, 90, 9, 4, 0] []) ∧
    ∃ i d t, fetchDecode (launched [1101, 90, 9, 4, 0] []) = .ok i ∧ i.dest? = some d ∧
      step (launched [1101, 90, 9, 4, 0] []) = .next t ∧ t.status ≠ .faulted ∧ 0 ≤ t.ip.toInt ∧
      d.raw.toNat = t.ip.toNat + 0 :=
  ⟨by decide, witness_inv, .add (imm 90) (imm 9) (pos 4), pos 4, _, rfl, rfl, rfl, by decide, by decide, by decide⟩

/-! ### Witnesses: invariants -/

theorem witness_StepKeepsInv :
    Inv 100 (launched [1101, 90, 9, 4, 0] []) ∧ ∃ t, step (launched [1101, 90, 9, 4, 0] []) = .next t :=
  ⟨witness_inv, _, rfl⟩

theorem witness_HostOperationsKeepInv : Inv 100 (launched [1101, 90, 9, 4, 0] []) := witness_inv

theorem witness_RunKeepsLengthAndExtendsOutput :
    ∃ t, RunsTo 2 (launched [104, 7, 99] []) t ∧ t.outq = [7] := ⟨_, rfl, rfl⟩

/-- A run of one step exists, and a run that has ended before its second. -/
theorem witness_EveryRunFromLaunchIsSafe :
    (∃ t, RunsTo 1 (launch 100 [99] [] [] State.reset) t) ∧
    (∃ t, 1 < 2 ∧ RunsTo 1 (launch 100 [99] [] [] State.reset) t ∧ t.status = .halted) :=
  ⟨⟨_, rfl⟩, ⟨_, by decide, rfl, rfl⟩⟩

theorem witness_SelfJumpRunsForEver :
    (launched [1105, 1, 0] []).status = .running ∧ (1 : Word) ≠ 0 ∧
      fetchDecode (launched [1105, 1, 0] []) =
        .ok (.jumpIfTrue ⟨.immediate, 1⟩ ⟨.immediate, (launched [1105, 1, 0] []).ip⟩) := ⟨rfl, by decide, rfl⟩

/-! ### Witnesses: instructions. The state has addresses 0 to 4; 0 and 4 are the ends of the bounds. -/

/-- A running machine of five Words. -/
def five : State := launched [1, 5, -3, 9223372036854775807, 99] [8]

theorem witness_AddStoresTheSum :
    Readable five (pos 4) ∧ Readable five (imm (-5)) ∧
      InWordRange ((operandWord five (pos 4)).toInt + (operandWord five (imm (-5))).toInt) ∧
      inBounds five (pos 0).raw = true :=
  ⟨.inr (by decide), .inl rfl, ⟨by decide, by decide⟩, by decide⟩

theorem witness_MultiplyStoresTheProduct :
    Readable five (pos 3) ∧ Readable five (imm (-1)) ∧
      InWordRange ((operandWord five (pos 3)).toInt * (operandWord five (imm (-1))).toInt) ∧
      inBounds five (pos 4).raw = true :=
  ⟨.inr (by decide), .inl rfl, ⟨by decide, by decide⟩, by decide⟩

theorem witness_LessThanStoresOneOrZero :
    Readable five (pos 0) ∧ Readable five (pos 4) ∧ inBounds five (pos 4).raw = true :=
  ⟨.inr (by decide), .inr (by decide), by decide⟩

theorem witness_EqualsStoresOneOrZero :
    Readable five (imm 5) ∧ Readable five (pos 1) ∧ inBounds five (pos 0).raw = true :=
  ⟨.inl rfl, .inr (by decide), by decide⟩

theorem witness_ReadInputStoresTheHead : five.inq = 8 :: [] ∧ inBounds five (pos 4).raw = true := ⟨rfl, by decide⟩

theorem witness_WriteOutputAppends : Readable five (pos 4) ∧ Readable five (imm (-42)) := ⟨.inr (by decide), .inl rfl⟩

theorem witness_JumpIfTrueRedirects : Readable five (pos 2) ∧ Readable five (imm (-4)) := ⟨.inr (by decide), .inl rfl⟩

theorem witness_JumpIfFalseRedirects : Readable five (imm 0) ∧ Readable five (pos 4) := ⟨.inl rfl, .inr (by decide)⟩

theorem not_readable_of_out_of_bounds {s : State} {w : Word} (h : inBounds s w = false) : ¬ Readable s (pos w) := by
  rintro (h' | h')
  · cases h'
  · exact absurd (h.symm.trans h') (by decide)

/-- The first address above the bounds and the first below them. -/
theorem witness_UnreadableOperandFaults :
    Instr.add (pos 5) (pos (-1)) (pos 0) ∈ [Instr.add (pos 5) (pos (-1)) (pos 0),
      .multiply (pos 5) (pos (-1)) (pos 0), .lessThan (pos 5) (pos (-1)) (pos 0), .equals (pos 5) (pos (-1)) (pos 0),
      .jumpIfTrue (pos 5) (pos (-1)), .jumpIfFalse (pos 5) (pos (-1))] ∧
    ¬ Readable five (pos 5) ∧ Readable five (pos 4) ∧ ¬ Readable five (pos (-1)) :=
  ⟨by simp, not_readable_of_out_of_bounds (by decide), .inr (by decide), not_readable_of_out_of_bounds (by decide)⟩

/-- One above `WMAX` and the product of -1 and `WMIN`. -/
theorem witness_OverflowFaults :
    Readable five (pos 3) ∧ Readable five (imm 1) ∧
      ¬ InWordRange ((operandWord five (pos 3)).toInt + (operandWord five (imm 1)).toInt) ∧
      Readable five (imm (-1)) ∧ Readable five (imm (-9223372036854775808)) ∧
      ¬ InWordRange ((operandWord five (imm (-1))).toInt * (operandWord five (imm (-9223372036854775808))).toInt) :=
  ⟨.inr (by decide), .inl rfl, fun h => absurd h.2 (by decide), .inl rfl, .inl rfl, fun h => absurd h.2 (by decide)⟩

theorem witness_InputExhaustionFaults :
    (launched [3, 0] []).inq = [] ∧
      ∃ t, step (launched [3, 0] []) = .next t ∧ t.status = .faulted ∧ t.cause = 3 := ⟨rfl, _, rfl, rfl, rfl⟩

theorem witness_DestinationOutOfBoundsFaults :
    Readable five (pos 0) ∧ Readable five (pos 4) ∧ inBounds five (pos 5).raw = false ∧
      InWordRange ((operandWord five (pos 0)).toInt + (operandWord five (pos 4)).toInt) ∧
      InWordRange ((operandWord five (pos 0)).toInt * (operandWord five (pos 4)).toInt) ∧
      five.inq ≠ [] ∧ inBounds five (pos (-1)).raw = false :=
  ⟨.inr (by decide), .inr (by decide), by decide, ⟨by decide, by decide⟩, ⟨by decide, by decide⟩, by decide, by decide⟩

/-- A completion and a fault. -/
theorem witness_StoringInstructionsFrame :
    Memory.wf five.mem = true ∧ five.status ≠ .faulted ∧
      (∃ t, exec (.add (imm 1) (pos 4) (pos 0)) five = .next t ∧ t.status ≠ .faulted) ∧
      (∃ t, exec (.equals (imm 1) (pos 4) (pos 5)) five = .next t ∧ t.status = .faulted) :=
  ⟨by decide, by decide, ⟨_, rfl, by decide⟩, ⟨_, rfl, rfl⟩⟩

theorem witness_ReadInputFrame :
    Memory.wf five.mem = true ∧ five.status ≠ .faulted ∧
      (∃ t, exec (.readInput (pos 4)) five = .next t ∧ t.status ≠ .faulted) ∧
      (∃ t, exec (.readInput (pos 5)) five = .next t ∧ t.status = .faulted) :=
  ⟨by decide, by decide, ⟨_, rfl, by decide⟩, ⟨_, rfl, rfl⟩⟩

theorem witness_NonStoringInstructionsFrame :
    five.status ≠ .faulted ∧
      (∃ t, exec (.writeOutput (pos 4)) five = .next t ∧ t.status ≠ .faulted) ∧
      (∃ t, exec (.jumpIfTrue (pos 5) (imm 0)) five = .next t ∧ t.status = .faulted) ∧
      (∃ t, exec (.jumpIfFalse (imm 0) (imm 0)) five = .next t ∧ t.status ≠ .faulted) ∧
      (∃ t, exec .halt five = .next t ∧ t.status ≠ .faulted) :=
  ⟨by decide, ⟨_, rfl, by decide⟩, ⟨_, rfl, rfl⟩, ⟨_, rfl, by decide⟩, ⟨_, rfl, by decide⟩⟩

/-! ### Witnesses: shared operations and the host -/

/-- The four edges of the bounds: -1, 0, `LEN` - 1, `LEN`. -/
theorem witness_MemReadIsChecked :
    (-1 : Word).toInt < 0 ∧ (0 ≤ (0 : Word).toInt ∧ (0 : Word).toInt < (five.len : Int)) ∧
      (0 ≤ (4 : Word).toInt ∧ (4 : Word).toInt < (five.len : Int)) ∧ (five.len : Int) ≤ (5 : Word).toInt := by decide

theorem witness_MemWriteReplacesExactlyOneWord :
    Memory.wf five.mem = true ∧ (0 ≤ (4 : Word).toInt ∧ (4 : Word).toInt < (five.len : Int)) ∧
      (five.len : Int) ≤ (5 : Word).toInt ∧ (-1 : Word).toInt < 0 := by decide

theorem witness_ValResolvesByMode :
    (0 ≤ (0 : Word).toInt ∧ (0 : Word).toInt < (five.len : Int)) ∧
      (five.len : Int) ≤ (5 : Word).toInt ∧ (-1 : Word).toInt < 0 := by decide

/-- `WMAX` + 1 overflows, `WMAX` + 0 does not. -/
theorem witness_AluTable :
    (alu .add 9223372036854775807 1).overflow = true ∧ (alu .add 9223372036854775807 0).overflow = false ∧
      (alu .mul (-1) (-9223372036854775808)).overflow = true := by decide

theorem witness_NoReturnFromFaultOrHalt :
    (five.setStatus .faulted).status = .faulted ∧ (five.setStatus .halted).status = .halted ∧
      HostOp.start ≠ .reset := by decide

theorem witness_HostActsOnlyInIdle : five.status ≠ .idle ∧ HostOp.patch 0 0 ≠ .reset := by decide

/-- An image of exactly `MAX_LEN` Words, and one of one Word more. -/
theorem witness_LoadInstallsTheImage :
    State.reset.status = .idle ∧ ([1, 99] : List Word).length ≤ 2 ∧ 2 < ([1, 99, 0] : List Word).length := by decide

theorem witness_PatchReplacesOneWord :
    (five.setStatus .idle).status = .idle ∧ Memory.wf (five.setStatus .idle).mem = true ∧
      inBounds (five.setStatus .idle) 4 = true ∧ inBounds (five.setStatus .idle) 5 = false := by decide

theorem witness_LaunchState :
    ([1, 0, 0, 0, 99] : List Word).length ≤ 5 ∧
      ∀ p ∈ ([(0, 2), (4, 0)] : List (Word × Word)),
        0 ≤ p.1.toInt ∧ p.1.toInt < (([1, 0, 0, 0, 99] : List Word).length : Int) := by simp

theorem witness_HostReadsOnlyWhatTheStatusAllows :
    five.status ≠ .halted ∧ five.status ≠ .faulted ∧ five.status = .running ∧ State.reset.status = .idle ∧
      (five.setStatus .halted).status = .halted ∧ inBounds (five.setStatus .halted) 0 = true ∧
      inBounds (five.setStatus .halted) 4 = true ∧ inBounds (five.setStatus .halted) 5 = false ∧
      inBounds (five.setStatus .halted) (-1) = false ∧
      (takeFault .inputExhaustion five).status = .faulted ∧
      (takeFault .inputExhaustion (five.setOutq [1])).status = .faulted ∧
      readFault (takeFault .inputExhaustion five) = readFault (takeFault .inputExhaustion (five.setOutq [1])) := by decide

/-- An IDLE machine that already holds input, an image of exactly `MAX_LEN` Words, a write at `LEN` - 1 and one at
`LEN` + 1. -/
theorem witness_SignalWritesAreLoadAndSupply :
    (State.reset.setInq [7]).status = .idle ∧ (State.reset.setInq [7]).len = 0 ∧ (State.reset.setInq [7]).mem = [] ∧
      ([1, 0, 99] : List Word).length ≤ 3 ∧ inBounds (five.setStatus .idle) 4 = true ∧
      (five.setStatus .idle).len < 6 := by decide

/-- As many pieces as the capacity, and one more. -/
theorem witness_LoaderDeliversThePieces :
    (∀ c ∈ [' ', '\n'], c.isWhitespace = true) ∧ ([['-', '1'], ['0', '7']] : List (List Char)) ≠ [] ∧
      [['-', '1'], ['0', '7']].map parsePiece = ([-1, 7] : List Word).map some ∧
      ([-1, 7] : List Word).length ≤ 2 ∧ 1 < ([-1, 7] : List Word).length :=
  ⟨by simp [Char.isWhitespace], by simp, by rfl, by simp, by simp⟩

theorem witness_LoaderAcceptsExactlyTheGrammar :
    (∃ piece ∈ splitCommas (trimText ['1', ',', ',', '2']), parsePiece piece = none) ∧
      parsePiece ['-', '0'] = some 0 := by decide

end Sys2Proof.Tests
end

section
/-! PROOFS. add, multiply and the ALU (spec 40_cycle_and_operands.md rule R82, 41_arithmetic.md rules R90 to R92): what
an instruction of format F3RRW does once its operands are readable, and that an ALU result without overflow is a Word. -/

namespace Sys2Proof.Machine

/-! ### Format F3RRW with readable operands -/

/-- With readable operands only the computation and the store are left (R76, R79). -/
theorem binaryStore_of_readable (f : Word → Word → Except FatalError Word) {p1 p2 : Param} (d : Param) {s : State}
    (h1 : Readable s p1) (h2 : Readable s p2) :
    binaryStore f p1 p2 d s =
      (f (operandWord s p1) (operandWord s p2) >>= fun r => (memWrite d.raw r s).map (advance 3)) := by
  have e1 := val_eq_ok.mpr ⟨h1, rfl⟩
  have e2 := val_eq_ok.mpr ⟨h2, rfl⟩
  simp only [binaryStore, e1, e2]
  rfl

theorem memWrite_map_advance {s : State} {d : Param} (hd : inBounds s d.raw = true) (r : Word) :
    (memWrite d.raw r s).map (advance 3) = .ok (stored s d r) := by
  rw [memWrite_eq_ok.mpr ⟨hd, rfl⟩]
  rfl

theorem binaryStore_eq_stored {f : Word → Word → Except FatalError Word} {p1 p2 d : Param} {s : State} {r : Word}
    (h1 : Readable s p1) (h2 : Readable s p2) (hf : f (operandWord s p1) (operandWord s p2) = .ok r)
    (hd : inBounds s d.raw = true) : binaryStore f p1 p2 d s = .ok (stored s d r) := by
  rw [binaryStore_of_readable f d h1 h2, hf]
  exact memWrite_map_advance hd r

/-- A failing computation ends the instruction before the destination is looked at (R129). -/
theorem binaryStore_eq_error {f : Word → Word → Except FatalError Word} {p1 p2 : Param} (d : Param) {s : State}
    {e : FatalError} (h1 : Readable s p1) (h2 : Readable s p2)
    (hf : f (operandWord s p1) (operandWord s p2) = .error e) : binaryStore f p1 p2 d s = .error e := by
  rw [binaryStore_of_readable f d h1 h2, hf]
  rfl

/-! ### The ALU's results are Words -/

theorem inWordRange_truthValue (b : Bool) : InWordRange (truthValue b) := by
  cases b <;> exact ⟨by decide, by decide⟩

/-- The overflow output tells exactly whether the result is outside the Word range, for all five selectors (R82). -/
theorem alu_overflow_eq_false {op : AluOp} {a b : Word} :
    (alu op a b).overflow = false ↔ InWordRange (alu op a b).result := by
  cases op with
  | add => exact outOfRange_eq_false
  | mul => exact outOfRange_eq_false
  | lt => exact iff_of_true rfl (inWordRange_truthValue _)
  | eq => exact iff_of_true rfl (inWordRange_truthValue _)
  | nz => exact iff_of_true rfl (inWordRange_truthValue _)

theorem toInt_aluWord {op : AluOp} {a b : Word} (h : InWordRange (alu op a b).result) :
    (aluWord op a b).toInt = (alu op a b).result :=
  toInt_ofInt_of_inWordRange h

theorem aluChecked_of_inWordRange {op : AluOp} (k : ArithKind) {a b : Word} (h : InWordRange (alu op a b).result) :
    aluChecked op k a b = .ok (aluWord op a b) :=
  aluChecked_eq_ok.mpr ⟨alu_overflow_eq_false.mpr h, rfl⟩

theorem aluChecked_of_not_inWordRange {op : AluOp} (k : ArithKind) {a b : Word}
    (h : ¬ InWordRange (alu op a b).result) : aluChecked op k a b = .error (.arithmeticOverflow k) :=
  aluChecked_eq_error.mpr ⟨by rwa [← Bool.not_eq_false, alu_overflow_eq_false], rfl⟩

/-! ### add and multiply -/

theorem exec_add (p1 p2 d : Param) (s : State) :
    exec (.add p1 p2 d) s = complete s (binaryStore (aluChecked .add .add) p1 p2 d s) := rfl

theorem exec_multiply (p1 p2 d : Param) (s : State) :
    exec (.multiply p1 p2 d) s = complete s (binaryStore (aluChecked .mul .mul) p1 p2 d s) := rfl

/-- The completion that add and multiply share: the stored Word has the exact result as its value (R90, R91). -/
theorem complete_aluChecked_of_inWordRange (op : AluOp) (k : ArithKind) {p1 p2 d : Param} {s : State}
    (h1 : Readable s p1) (h2 : Readable s p2) (hr : InWordRange (alu op (operandWord s p1) (operandWord s p2)).result)
    (hd : inBounds s d.raw = true) :
    ∃ r : Word, r.toInt = (alu op (operandWord s p1) (operandWord s p2)).result ∧
      complete s (binaryStore (aluChecked op k) p1 p2 d s) = .next (stored s d r) := by
  refine ⟨aluWord op (operandWord s p1) (operandWord s p2), toInt_aluWord hr, ?_⟩
  rw [binaryStore_eq_stored h1 h2 (aluChecked_of_inWordRange k hr) hd]
  rfl

/-- The fault that add and multiply share, whatever the destination is (R92, R129). -/
theorem complete_aluChecked_of_not_inWordRange (op : AluOp) (k : ArithKind) {p1 p2 : Param} (d : Param) {s : State}
    (h1 : Readable s p1) (h2 : Readable s p2)
    (hr : ¬ InWordRange (alu op (operandWord s p1) (operandWord s p2)).result) :
    complete s (binaryStore (aluChecked op k) p1 p2 d s) = .next (takeFault (.arithmeticOverflow k) s) := by
  rw [binaryStore_eq_error d h1 h2 (aluChecked_of_not_inWordRange k hr)]
  rfl

theorem takeFault_arithmeticOverflow_add (s : State) :
    takeFault (.arithmeticOverflow .add) s = faulted s 6 0 0 := rfl

theorem takeFault_arithmeticOverflow_mul (s : State) :
    takeFault (.arithmeticOverflow .mul) s = faulted s 6 1 0 := rfl

/-- Settles O26: `exec` is the shared completion at the ALU's sum. -/
theorem addStoresTheSum : Obligations.AddStoresTheSum := by
  intro s p1 p2 d h1 h2 hr hd
  rw [exec_add]
  exact complete_aluChecked_of_inWordRange .add .add h1 h2 hr hd

/-- Settles O27: `exec` is the shared completion at the ALU's product. -/
theorem multiplyStoresTheProduct : Obligations.MultiplyStoresTheProduct := by
  intro s p1 p2 d h1 h2 hr hd
  rw [exec_multiply]
  exact complete_aluChecked_of_inWordRange .mul .mul h1 h2 hr hd

/-- Settles O36: an overflow ends the computation, which comes before the store. -/
theorem overflowFaults : Obligations.OverflowFaults := by
  intro s p1 p2 d h1 h2
  constructor
  · intro hr
    rw [exec_add, ← takeFault_arithmeticOverflow_add]
    exact complete_aluChecked_of_not_inWordRange .add .add d h1 h2 hr
  · intro hr
    rw [exec_multiply, ← takeFault_arithmeticOverflow_mul]
    exact complete_aluChecked_of_not_inWordRange .mul .mul d h1 h2 hr

/-! ### The table of the ALU -/

/-- The bounds of the overflow output as powers of two (R4, D1). -/
theorem outOfRange_iff_pow {z : Int} : outOfRange z = true ↔ z < -2 ^ 63 ∨ 2 ^ 63 - 1 < z := by
  rw [outOfRange_eq_true, Config.wMin, Config.wMax]
  norm_num

theorem truthValue_decide {P Q : Prop} [Decidable P] [Decidable Q] (h : P ↔ Q) :
    truthValue (decide P) = if Q then 1 else 0 := by
  simp only [truthValue, decide_eq_true_eq, h]

theorem ne_zero_iff_toInt_ne_zero {a : Word} : a ≠ 0 ↔ a.toInt ≠ 0 :=
  not_congr (BitVec.toInt_inj (y := 0)).symm

theorem alu_lt_result (a b : Word) : (alu .lt a b).result = if a.toInt < b.toInt then 1 else 0 :=
  truthValue_decide Iff.rfl

theorem alu_eq_result (a b : Word) : (alu .eq a b).result = if a.toInt = b.toInt then 1 else 0 :=
  truthValue_decide BitVec.toInt_inj.symm

theorem alu_nz_result (a b : Word) : (alu .nz a b).result = if a.toInt ≠ 0 then 1 else 0 :=
  truthValue_decide ne_zero_iff_toInt_ne_zero

/-- Settles O45: each row from its own lemma, the checked operation from its two cases. -/
theorem aluTable : Obligations.AluTable := by
  intro a b
  refine ⟨rfl, outOfRange_iff_pow, rfl, outOfRange_iff_pow, alu_lt_result a b, rfl, alu_eq_result a b, rfl,
    alu_nz_result a b, rfl, ?_, ?_⟩
  · intro op k hv
    exact aluChecked_eq_error.mpr ⟨hv, rfl⟩
  · intro op k hv
    exact ⟨aluWord op a b, aluChecked_eq_ok.mpr ⟨hv, rfl⟩, toInt_aluWord (alu_overflow_eq_false.mp hv)⟩

end Sys2Proof.Machine
end

section
/-! PROOFS. The loader's grammar (spec 70_reset_and_hazards.md rule R150): which pieces denote an integer, which a Word,
and that one bad piece spoils the text. -/

namespace Sys2Proof.Machine

theorem inWordRange_toInt (w : Word) : InWordRange w.toInt :=
  ⟨w.le_toInt, Int.le_sub_one_of_lt w.toInt_lt⟩

/-- A Word and the integer in range that it stands for determine each other. -/
theorem inWordRange_and_ofInt_eq {z : Int} {w : Word} : InWordRange z ∧ BitVec.ofInt 64 z = w ↔ z = w.toInt := by
  constructor
  · rintro ⟨hz, rfl⟩
    exact (toInt_ofInt_of_inWordRange hz).symm
  · rintro rfl
    exact ⟨inWordRange_toInt w, BitVec.ofInt_toInt⟩

theorem isDigits_iff {ds : List Char} : isDigits ds = true ↔ ds ≠ [] ∧ ∀ c ∈ ds, c.isDigit = true := by
  simp [isDigits]

theorem isDigits_minus_cons (cs : List Char) : isDigits ('-' :: cs) = false := rfl

theorem pieceValue_minus_cons (cs : List Char) :
    pieceValue ('-' :: cs) = if isDigits cs then some (-(digitsValue cs : Int)) else none := rfl

/-- Without a minus in front a piece must be digits throughout. -/
theorem pieceValue_of_not_minus {piece : List Char} (h : ∀ cs, piece ≠ '-' :: cs) :
    pieceValue piece = if isDigits piece then some (digitsValue piece : Int) else none := by
  cases piece with
  | nil => rfl
  | cons c cs => exact if_neg fun hc => h cs (by rw [hc])

/-- The pieces that denote an integer are those of `-?[0-9]+`, with the value their digits say (R150). -/
theorem pieceValue_eq_some {piece : List Char} {z : Int} :
    pieceValue piece = some z ↔ ∃ ds, isDigits ds = true ∧
      ((piece = ds ∧ z = (digitsValue ds : Int)) ∨ (piece = '-' :: ds ∧ z = -(digitsValue ds : Int))) := by
  by_cases hm : ∃ cs, piece = '-' :: cs
  · obtain ⟨cs, rfl⟩ := hm
    rw [pieceValue_minus_cons, Option.ite_none_right_eq_some, Option.some.injEq]
    constructor
    · rintro ⟨hd, rfl⟩
      exact ⟨cs, hd, .inr ⟨rfl, rfl⟩⟩
    · rintro ⟨ds, hd, ⟨rfl, -⟩ | ⟨he, rfl⟩⟩
      · rw [isDigits_minus_cons] at hd
        exact absurd hd Bool.false_ne_true
      · obtain rfl := List.tail_eq_of_cons_eq he
        exact ⟨hd, rfl⟩
  · have hn : ∀ cs, piece ≠ '-' :: cs := not_exists.mp hm
    rw [pieceValue_of_not_minus hn, Option.ite_none_right_eq_some, Option.some.injEq]
    constructor
    · rintro ⟨hd, rfl⟩
      exact ⟨piece, hd, .inl ⟨rfl, rfl⟩⟩
    · rintro ⟨ds, hd, ⟨rfl, rfl⟩ | ⟨he, -⟩⟩
      · exact ⟨hd, rfl⟩
      · exact absurd he (hn ds)

/-- A piece parses to the Word whose value it denotes, so only when that value is a Word's. -/
theorem parsePiece_eq_some {piece : List Char} {w : Word} :
    parsePiece piece = some w ↔ pieceValue piece = some w.toInt := by
  unfold parsePiece
  cases pieceValue piece with
  | none => simp
  | some z =>
    simp only [Option.ite_none_right_eq_some, Option.some.injEq]
    exact inWordRange_and_ofInt_eq

theorem parsePieces_eq_none {pieces : List (List Char)} {piece : List Char} (hm : piece ∈ pieces)
    (hp : parsePiece piece = none) : parsePieces pieces = none := by
  induction pieces with
  | nil => exact absurd hm List.not_mem_nil
  | cons p ps ih =>
    rw [parsePieces]
    obtain rfl | hm := List.mem_cons.mp hm
    · rw [hp]
    · rw [ih hm]
      cases parsePiece p <;> rfl

theorem parseImage_eq_parseError {text : List Char} (maxLen : Nat)
    (h : parsePieces (splitCommas (trimText text)) = none) : parseImage maxLen text = .error .parseError := by
  rw [parseImage, h]

/-- Settles O57: the piece by its value, the text by its first bad piece. -/
theorem loaderAcceptsExactlyTheGrammar : Obligations.LoaderAcceptsExactlyTheGrammar := by
  constructor
  · intro piece w
    rw [parsePiece_eq_some, pieceValue_eq_some]
    simp only [isDigits_iff, and_assoc]
  · rintro maxLen text ⟨piece, hm, hp⟩
    exact parseImage_eq_parseError maxLen (parsePieces_eq_none hm hp)

end Sys2Proof.Machine
end

section
/-! PROOFS. Outside RUNNING, and the host's side (spec 10_state.md rules R15, R16, R22, R24, 60_exceptions.md rules
R130, R131, 70_reset_and_hazards.md rules R140 to R144): the ends of a run, what the host reads, RESET, LOAD and the
launch. -/

namespace Sys2Proof.Machine

/-! ### The step outside RUNNING -/

theorem step_of_halted {s : State} (h : s.status = .halted) : step s = .fault .noStepHalted := by
  simp only [step, h]

theorem step_of_faulted {s : State} (h : s.status = .faulted) : step s = .fault .noStepFaulted := by
  simp only [step, h]

/-! ### What the host reads, by status -/

theorem runResult_of_halted {s : State} (h : s.status = .halted) :
    runResult s = some (.success s.outq (Memory.words s.mem 0 s.len)) := by
  simp only [runResult, h]

theorem runResult_of_faulted {s : State} (h : s.status = .faulted) :
    runResult s = some (.failure ⟨s.cause, s.fkind, s.fip, s.finfo⟩) := by
  simp only [runResult, h]

theorem runResult_of_idle_or_running {s : State} (h : s.status = .idle ∨ s.status = .running) :
    runResult s = none := by
  obtain h | h := h <;> simp only [runResult, h]

theorem readStatus_eq {s : State} {st : Status} (h : s.status = st) : readStatus s = statusCode st := by
  rw [readStatus, h]

theorem readOutq_of_halted {s : State} (h : s.status = .halted) : readOutq s = some s.outq := if_pos h

theorem readOutq_of_not_halted {s : State} (h : s.status ≠ .halted) : readOutq s = none := if_neg h

theorem readMem_of_halted {s : State} {a : Word} (h : s.status = .halted) (hb : inBounds s a = true) :
    readMem a s = some (s.wordAt a) := if_pos ⟨h, hb⟩

theorem readMem_out_of_bounds {s : State} {a : Word} (hb : inBounds s a = false) : readMem a s = none :=
  if_neg fun hc => Bool.false_ne_true (hb.symm.trans hc.2)

theorem readMem_of_not_halted {s : State} (h : s.status ≠ .halted) (a : Word) : readMem a s = none :=
  if_neg fun hc => h hc.1

theorem readFault_of_faulted {s : State} (h : s.status = .faulted) :
    readFault s = some ⟨s.cause, s.fkind, s.fip, s.finfo⟩ := if_pos h

theorem readFault_of_not_faulted {s : State} (h : s.status ≠ .faulted) : readFault s = none := if_neg h

/-- A failure is the record that the host reads from the fault registers (R24). -/
theorem runResult_eq_readFault {s : State} (h : s.status = .faulted) :
    runResult s = (readFault s).map .failure := by
  rw [runResult_of_faulted h, readFault_of_faulted h]
  rfl

/-- Settles O34: halt writes `status` alone, and the other two clauses are about a state in HALTED. -/
theorem haltEndsTheRunInSuccess : Obligations.HaltEndsTheRunInSuccess := by
  intro s
  exact ⟨rfl, step_of_halted rfl, runResult_of_halted rfl⟩

/-- Settles O46: the fields from the definition of the entry, the rest because its state is in FAULTED. -/
theorem faultEntry : Obligations.FaultEntry := by
  intro e s
  have hs : (takeFault e s).status ≠ .halted := by simp
  exact ⟨takeFault e s, rfl, rfl, rfl, rfl, rfl, rfl, rfl, rfl, rfl, rfl, rfl, step_of_faulted rfl,
    readOutq_of_not_halted hs, runResult_of_faulted rfl⟩

/-- Settles O54: each clause from the read's lemma for the status; a success and a failure are different results. -/
theorem hostReadsOnlyWhatTheStatusAllows : Obligations.HostReadsOnlyWhatTheStatusAllows := by
  refine ⟨?status, ?halted, ?notHalted, ?faulted, ?notFaulted, ?noResult, ?sameRecord, ?successNoFailure⟩
  case status => exact fun s => ⟨readStatus_eq, readStatus_eq, readStatus_eq, readStatus_eq⟩
  case halted =>
    intro s h
    exact ⟨readOutq_of_halted h, fun a => readMem_of_halted h, fun a => readMem_out_of_bounds, runResult_of_halted h⟩
  case notHalted => exact fun s h => ⟨readOutq_of_not_halted h, readMem_of_not_halted h⟩
  case faulted => exact fun s h => ⟨readFault_of_faulted h, runResult_of_faulted h⟩
  case notFaulted => exact fun s h => readFault_of_not_faulted h
  case noResult => exact fun s h => runResult_of_idle_or_running h
  case sameRecord =>
    intro s t hs ht h
    rw [runResult_eq_readFault hs, runResult_eq_readFault ht, h]
  case successNoFailure =>
    intro s t hs ht
    rw [runResult_of_halted hs, runResult_of_faulted ht]
    simp

/-! ### The host's operations -/

theorem hostApply_reset (maxLen : Nat) (s : State) : hostApply maxLen .reset s = State.reset := rfl

/-- No operation but RESET acts outside IDLE (R141). -/
theorem hostApply_of_not_idle (maxLen : Nat) {op : HostOp} {s : State} (hs : s.status ≠ .idle) (hop : op ≠ .reset) :
    hostApply maxLen op s = s := by
  cases op with
  | reset => exact absurd rfl hop
  | load image => exact if_neg fun h => hs h.1
  | patch a w => exact if_neg fun h => hs h.1
  | supply ws => exact if_neg hs
  | start => exact if_neg hs

theorem hostApply_load {maxLen : Nat} {image : List Word} {s : State} (hs : s.status = .idle)
    (hl : image.length ≤ maxLen) :
    hostApply maxLen (.load image) s = { s with mem := Memory.ofImage image 0, len := image.length } :=
  if_pos ⟨hs, hl⟩

theorem hostApply_load_too_long {maxLen : Nat} {image : List Word} (s : State) (hl : maxLen < image.length) :
    hostApply maxLen (.load image) s = s :=
  if_neg fun h => absurd h.2 (by omega)

theorem hostApply_patch {maxLen : Nat} {a w : Word} {s : State} (hs : s.status = .idle) (hb : inBounds s a = true) :
    hostApply maxLen (.patch a w) s = s.setMem (Memory.write s.mem a.toNat w) :=
  if_pos ⟨hs, hb⟩

theorem hostApply_patch_out_of_bounds (maxLen : Nat) {a : Word} (w : Word) {s : State} (hb : inBounds s a = false) :
    hostApply maxLen (.patch a w) s = s :=
  if_neg fun h => Bool.false_ne_true (hb.symm.trans h.2)

theorem hostApply_supply {maxLen : Nat} {ws : List Word} {s : State} (hs : s.status = .idle) :
    hostApply maxLen (.supply ws) s = s.setInq ws :=
  if_pos hs

theorem hostApply_start {maxLen : Nat} {s : State} (hs : s.status = .idle) :
    hostApply maxLen .start s = s.setStatus .running :=
  if_pos hs

@[simp] theorem hostApplyAll_nil (maxLen : Nat) (s : State) : hostApplyAll maxLen [] s = s := rfl

@[simp] theorem hostApplyAll_cons (maxLen : Nat) (op : HostOp) (ops : List HostOp) (s : State) :
    hostApplyAll maxLen (op :: ops) s = hostApplyAll maxLen ops (hostApply maxLen op s) := rfl

@[simp] theorem hostApplyAll_append (maxLen : Nat) (ops ops' : List HostOp) (s : State) :
    hostApplyAll maxLen (ops ++ ops') s = hostApplyAll maxLen ops' (hostApplyAll maxLen ops s) :=
  List.foldl_append

theorem inBounds_reset (a : Word) : inBounds State.reset a = false := by
  rw [← Bool.not_eq_true, inBounds_iff, State.reset, Nat.cast_zero]
  omega

/-- Settles O47: both statuses have no step, and neither is IDLE. -/
theorem noReturnFromFaultOrHalt : Obligations.NoReturnFromFaultOrHalt := by
  intro s h
  have hidle : s.status ≠ .idle := by obtain h | h := h <;> simp [h]
  constructor
  · intro t
    obtain h | h := h
    · simp [step_of_faulted h]
    · simp [step_of_halted h]
  · intro maxLen op
    exact ⟨hostApply_of_not_idle maxLen hidle, fun hop => hop ▸ hostApply_reset maxLen s⟩

/-- Settles O48: the state after RESET is written out field by field, and bounds of length 0 hold no address. -/
theorem resetFromAnyState : Obligations.ResetFromAnyState := by
  intro maxLen s
  exact ⟨State.reset, hostApply_reset maxLen s, rfl, rfl, rfl, rfl, rfl, rfl, rfl, rfl, rfl, rfl, inBounds_reset⟩

/-! ### LOAD: the Words of an image -/

theorem Memory.getElem_words {m : List Cell} {k n j : Nat} (h : j < (Memory.words m k n).length) :
    (Memory.words m k n)[j] = Memory.read m (k + j) := by
  rw [← List.getD_eq_getElem _ 0 h]
  exact Memory.words_getD m k n j (by simpa using h)

theorem Memory.words_ofImage (ws : List Word) : Memory.words (Memory.ofImage ws 0) 0 ws.length = ws := by
  refine List.ext_getElem (Memory.words_length _ _ _) fun j h1 h2 => ?_
  rw [Memory.getElem_words, Memory.read_ofImage, List.getD_eq_getElem _ _ h2]

/-- Settles O50: the cells of the image are canonical, below its length, and read as its Words. -/
theorem loadInstallsTheImage : Obligations.LoadInstallsTheImage := by
  intro maxLen image s hs
  constructor
  · intro hl
    exact ⟨Memory.ofImage image 0, hostApply_load hs hl, Memory.ofImage_wf image 0, Memory.ofImage_below image,
      Memory.words_ofImage image⟩
  · exact hostApply_load_too_long s

/-! ### The launch -/

/-- Memory after the stores of a list of patches, the first of the list first. -/
def patchedMem (patches : List (Word × Word)) (m : List Cell) : List Cell :=
  patches.foldl (fun m p => Memory.write m p.1.toNat p.2) m

theorem patchedMem_cons (p : Word × Word) (ps : List (Word × Word)) (m : List Cell) :
    patchedMem (p :: ps) m = patchedMem ps (Memory.write m p.1.toNat p.2) := rfl

theorem patchedMem_wf (patches : List (Word × Word)) {m : List Cell} (hm : Memory.wf m = true) :
    Memory.wf (patchedMem patches m) = true := by
  induction patches generalizing m with
  | nil => exact hm
  | cons p ps ih => exact ih (Memory.write_wf hm _ _)

/-- A write replaces one Word of the list of the Words from address 0. -/
theorem Memory.words_write {m : List Cell} (hm : Memory.wf m = true) (a n : Nat) (w : Word) :
    Memory.words (Memory.write m a w) 0 n = (Memory.words m 0 n).set a w := by
  refine List.ext_getElem (by simp) fun j h1 h2 => ?_
  rw [Memory.getElem_words, Memory.read_write hm, List.getElem_set, Memory.getElem_words, Nat.zero_add]
  simp only [eq_comm]

theorem words_patchedMem (patches : List (Word × Word)) {m : List Cell} (hm : Memory.wf m = true) (n : Nat) :
    Memory.words (patchedMem patches m) 0 n =
      patches.foldl (fun im p => im.set p.1.toNat p.2) (Memory.words m 0 n) := by
  induction patches generalizing m with
  | nil => rfl
  | cons p ps ih => rw [patchedMem_cons, ih (Memory.write_wf hm _ _), Memory.words_write hm, List.foldl_cons]

/-- In IDLE, patches in bounds store their Words and do nothing else (R141). -/
theorem hostApplyAll_patchOps (maxLen : Nat) {patches : List (Word × Word)} {s : State} (hs : s.status = .idle)
    (hp : ∀ p ∈ patches, inBounds s p.1 = true) :
    hostApplyAll maxLen (patchOps patches) s = s.setMem (patchedMem patches s.mem) := by
  induction patches generalizing s with
  | nil => rfl
  | cons p ps ih =>
    have hps : ∀ q ∈ ps, inBounds (s.setMem (Memory.write s.mem p.1.toNat p.2)) q.1 = true :=
      fun q hq => hp q (List.mem_cons_of_mem _ hq)
    have hpatch := hostApply_patch (maxLen := maxLen) (w := p.2) hs (hp p List.mem_cons_self)
    calc hostApplyAll maxLen (patchOps (p :: ps)) s
        = hostApplyAll maxLen (patchOps ps) (hostApply maxLen (.patch p.1 p.2) s) := rfl
      _ = hostApplyAll maxLen (patchOps ps) (s.setMem (Memory.write s.mem p.1.toNat p.2)) := by rw [hpatch]
      _ = s.setMem (patchedMem (p :: ps) s.mem) := ih hs hps

/-- A launch is LOAD, PATCHes, SUPPLY and START on the reset state (R144). -/
theorem launch_eq (maxLen : Nat) (image : List Word) (patches : List (Word × Word)) (input : List Word) (s : State) :
    launch maxLen image patches input s =
      hostApply maxLen .start (hostApply maxLen (.supply input)
        (hostApplyAll maxLen (patchOps patches) (hostApply maxLen (.load image) State.reset))) := by
  simp [launch, launchOps, hostApply_reset]

/-- Settles O52: each operation of R144 in turn, all of them but the last leaving the machine in IDLE. -/
theorem launchState : Obligations.LaunchState := by
  intro maxLen image patches input s hl hp
  refine ⟨patchedMem patches (Memory.ofImage image 0), ?_, patchedMem_wf patches (Memory.ofImage_wf image 0), ?_⟩
  · rw [launch_eq, hostApply_load rfl hl, hostApplyAll_patchOps maxLen rfl fun p hm => inBounds_iff.mpr (hp p hm),
      hostApply_supply rfl, hostApply_start rfl]
    rfl
  · rw [words_patchedMem patches (Memory.ofImage_wf image 0), Memory.words_ofImage]

/-- A step with `ip` out of bounds ends in phase 1 (R72). -/
theorem step_of_ip_out_of_bounds {s : State} (hs : s.status = .running) (hb : inBounds s s.ip = false) :
    step s = .next (takeFault (.addressingError .fetch s.ip) s) := by
  have hf : fetchDecode s = .error (.addressingError .fetch s.ip) := by
    rw [fetchDecode, memRead_eq_error.mpr ⟨hb, rfl⟩]
    rfl
  simp only [step, hs, hf]

/-- Settles O53: without LOAD the bounds are empty, so `ip` = 0 is outside them. -/
theorem startWithoutLoadFaults : Obligations.StartWithoutLoadFaults := by
  intro maxLen input s
  rw [hostApplyAll_cons, hostApply_reset, hostApplyAll_cons, hostApply_supply rfl, hostApplyAll_cons,
    hostApply_start rfl]
  exact step_of_ip_out_of_bounds rfl (inBounds_reset 0)

end Sys2Proof.Machine
end

section
/-! PROOFS. What every step, every host operation and every run keeps (spec 10_state.md rules R11 to R16 and R22,
20_memory.md rule R34, 70_reset_and_hazards.md rules R140 to R146). -/

namespace Sys2Proof.Machine

/-! ### The effects of a step, from a running state -/

/-- A step is the entry of a fault or the effect of the fetched instruction. -/
theorem step_effect {s t : State} (h : step s = .next t) :
    s.status = .running ∧ ((∃ e, t = takeFault e s) ∨ ∃ i, fetchDecode s = .ok i ∧ Effect i s t) := by
  obtain ⟨hs, ⟨e, -, rfl⟩ | ⟨i, hf, hx⟩⟩ := step_cases h
  · exact ⟨hs, .inl ⟨e, rfl⟩⟩
  · exact ⟨hs, .inr ⟨i, hf, exec_effect hx⟩⟩

/-- What every next state has in common with the state before the step: `LEN`, the output so far at the front of the
output, the input left at the end of the input. -/
structure Extends (s t : State) : Prop where
  len : t.len = s.len
  outq : s.outq <+: t.outq
  inq : t.inq <:+ s.inq

theorem Extends.of_eq {s t : State} (hl : t.len = s.len) (ho : t.outq = s.outq) (hi : t.inq = s.inq) : Extends s t :=
  ⟨hl, ho ▸ List.prefix_rfl, hi ▸ List.suffix_rfl⟩

theorem Extends.trans {s t u : State} (h : Extends s t) (h' : Extends t u) : Extends s u :=
  ⟨h'.len.trans h.len, h.outq.trans h'.outq, h'.inq.trans h.inq⟩

theorem Effect.extends {i : Instr} {s t : State} (h : Effect i s t) : Extends s t := by
  cases h with
  | fault e => exact Extends.of_eq rfl rfl rfl
  | store d r hd hi hb => exact Extends.of_eq rfl rfl rfl
  | input d x rest hi hq hb => exact ⟨rfl, List.prefix_rfl, hq ▸ List.suffix_cons x rest⟩
  | output p hi hr => exact ⟨rfl, List.prefix_append _ _, List.suffix_rfl⟩
  | jump w hi => exact Extends.of_eq rfl rfl rfl
  | halt hi => exact Extends.of_eq rfl rfl rfl

theorem step_extends {s t : State} (h : step s = .next t) : Extends s t := by
  obtain ⟨-, ⟨e, rfl⟩ | ⟨i, -, he⟩⟩ := step_effect h
  · exact Extends.of_eq rfl rfl rfl
  · exact he.extends

/-- An instruction leaves a running machine in one of three statuses, HALTED only when it is halt. -/
theorem Effect.status_cases {i : Instr} {s t : State} (h : Effect i s t) (hs : s.status = .running) :
    t.status = .faulted ∨ t.status = .running ∨ (t.status = .halted ∧ i = .halt) := by
  cases h with
  | fault e => exact .inl rfl
  | store d r hd hi hb => exact .inr (.inl hs)
  | input d x rest hi hq hb => exact .inr (.inl hs)
  | output p hi hr => exact .inr (.inl hs)
  | jump w hi => exact .inr (.inl hs)
  | halt hi => exact .inr (.inr ⟨rfl, hi⟩)

/-- The statuses a step can leave, HALTED only by halt. -/
theorem step_status_cases {s t : State} (h : step s = .next t) :
    t.status = .faulted ∨ t.status = .running ∨ (t.status = .halted ∧ fetchDecode s = .ok .halt) := by
  obtain ⟨hs, ⟨e, rfl⟩ | ⟨i, hf, he⟩⟩ := step_effect h
  · exact .inl rfl
  · obtain ht | ht | ⟨ht, rfl⟩ := he.status_cases hs
    · exact .inl ht
    · exact .inr (.inl ht)
    · exact .inr (.inr ⟨ht, hf⟩)

theorem step_status_ne_idle {s t : State} (h : step s = .next t) : t.status ≠ .idle := by
  obtain ht | ht | ⟨ht, -⟩ := step_status_cases h <;> simp [ht]

/-! ### The invariant is kept by every step -/

/-- Every fault has a pair of codes of the tables (R121 to R127). -/
theorem codes_mem_legalCodes (e : FatalError) : (causeCode e, kindCode e) ∈ legalCodes := by
  cases e with
  | decodeError k v => cases k <;> simp [causeCode, kindCode, legalCodes]
  | addressingError k a => cases k <;> simp [causeCode, kindCode, legalCodes]
  | inputExhaustion => simp [causeCode, kindCode, legalCodes]
  | modeError k j => cases k <;> simp [causeCode, kindCode, legalCodes]
  | arithmeticOverflow k => cases k <;> simp [causeCode, kindCode, legalCodes]

theorem Inv.takeFault {maxLen : Nat} {s : State} (h : Inv maxLen s) (e : FatalError) : Inv maxLen (takeFault e s) where
  memWf := h.memWf
  memBelow := h.memBelow
  lenLe := h.lenLe
  idleFresh := fun hi => nomatch hi
  noRecord := fun hn => absurd rfl hn
  record := fun _ => ⟨codes_mem_legalCodes e, rfl⟩

/-- After launch the invariant says nothing of `ip` and of the queues. -/
theorem Inv.setRunning {maxLen : Nat} {s : State} (h : Inv maxLen s) (hs : s.status ≠ .faulted) (ip : Word)
    (inq outq : List Word) :
    Inv maxLen { s with ip := ip, inq := inq, outq := outq, status := .running } where
  memWf := h.memWf
  memBelow := h.memBelow
  lenLe := h.lenLe
  idleFresh := fun hi => nomatch hi
  noRecord := fun _ => h.noRecord hs
  record := fun hf => nomatch hf

theorem Inv.setHalted {maxLen : Nat} {s : State} (h : Inv maxLen s) (hs : s.status ≠ .faulted) :
    Inv maxLen (s.setStatus .halted) where
  memWf := h.memWf
  memBelow := h.memBelow
  lenLe := h.lenLe
  idleFresh := fun hi => nomatch hi
  noRecord := fun _ => h.noRecord hs
  record := fun hf => nomatch hf

/-- A store in bounds keeps memory canonical and below `LEN` (R32, R34). -/
theorem Inv.setMem_write {maxLen : Nat} {s : State} (h : Inv maxLen s) {a : Word} (hb : inBounds s a = true)
    (w : Word) :
    Inv maxLen (s.setMem (Memory.write s.mem a.toNat w)) where
  memWf := Memory.write_wf h.memWf _ _
  memBelow := Memory.write_below h.memBelow (toNat_lt_of_inBounds hb) w
  lenLe := h.lenLe
  idleFresh := h.idleFresh
  noRecord := h.noRecord
  record := h.record

theorem Inv.effect {maxLen : Nat} {i : Instr} {s t : State} (h : Inv maxLen s) (hs : s.status = .running)
    (he : Effect i s t) : Inv maxLen t := by
  have hn : s.status ≠ .faulted := by simp [hs]
  cases he with
  | fault e => exact h.takeFault e
  | store d r hd hi hb =>
    simpa [stored, State.setMem, hs] using (h.setMem_write hb r).setRunning hn (s.ip + 4) s.inq s.outq
  | input d x rest hi hq hb =>
    simpa [State.setMem, hs] using (h.setMem_write hb x).setRunning hn (s.ip + 2) rest s.outq
  | output p hi hr => simpa [hs] using h.setRunning hn (s.ip + 2) s.inq (s.outq ++ [operandWord s p])
  | jump w hi => simpa [State.setIp, hs] using h.setRunning hn w s.inq s.outq
  | halt hi => exact h.setHalted hn

/-- Settles O21: the entry of a fault and each effect of an instruction keep the invariant. -/
theorem stepKeepsInv : Obligations.StepKeepsInv := by
  intro maxLen s t h hstep
  obtain ⟨hs, ⟨e, rfl⟩ | ⟨i, -, he⟩⟩ := step_effect hstep
  · exact h.takeFault e
  · exact h.effect hs he

/-- Settles O20: the reset state has no cell, no output and no record. -/
theorem resetSatisfiesInv : Obligations.ResetSatisfiesInv := by
  intro maxLen
  exact ⟨rfl, rfl, Nat.zero_le maxLen, fun _ => ⟨rfl, rfl⟩, fun _ => ⟨rfl, rfl, rfl, rfl⟩, fun hf => nomatch hf⟩

/-! ### The invariant is kept by every host operation -/

/-- A host operation in IDLE but RESET and START replaces memory or the input, and `LEN` with memory. -/
theorem Inv.setIdle {maxLen : Nat} {s : State} (h : Inv maxLen s) {m : List Cell} {len : Nat} (inq : List Word)
    (hm : Memory.wf m = true) (hb : Memory.below m len = true) (hl : len ≤ maxLen) :
    Inv maxLen { s with mem := m, len := len, inq := inq } where
  memWf := hm
  memBelow := hb
  lenLe := hl
  idleFresh := h.idleFresh
  noRecord := h.noRecord
  record := h.record

theorem Inv.hostApply_of_idle {maxLen : Nat} {s : State} (h : Inv maxLen s) (hs : s.status = .idle) (op : HostOp) :
    Inv maxLen (hostApply maxLen op s) := by
  have hn : s.status ≠ .faulted := by simp [hs]
  cases op with
  | reset => exact resetSatisfiesInv maxLen
  | load image =>
    by_cases hl : image.length ≤ maxLen
    · rw [hostApply_load hs hl]
      exact h.setIdle s.inq (Memory.ofImage_wf image 0) (Memory.ofImage_below image) hl
    · rw [hostApply_load_too_long s (Nat.lt_of_not_le hl)]
      exact h
  | patch a w =>
    cases hb : inBounds s a with
    | false =>
      rw [hostApply_patch_out_of_bounds maxLen w hb]
      exact h
    | true =>
      rw [hostApply_patch hs hb]
      exact h.setMem_write hb w
  | supply ws =>
    rw [hostApply_supply hs]
    exact h.setIdle ws h.memWf h.memBelow h.lenLe
  | start =>
    rw [hostApply_start hs]
    exact h.setRunning hn s.ip s.inq s.outq

/-- Settles O22: in IDLE operation by operation; elsewhere only RESET acts. -/
theorem hostOperationsKeepInv : Obligations.HostOperationsKeepInv := by
  intro maxLen op s h
  by_cases hs : s.status = .idle
  · exact h.hostApply_of_idle hs op
  · by_cases hop : op = .reset
    · rw [hop]
      exact resetSatisfiesInv maxLen
    · rw [hostApply_of_not_idle maxLen hs hop]
      exact h

theorem Inv.hostApplyAll {maxLen : Nat} {s : State} (h : Inv maxLen s) (ops : List HostOp) :
    Inv maxLen (hostApplyAll maxLen ops s) := by
  induction ops generalizing s with
  | nil => exact h
  | cons op ops ih => exact ih (hostOperationsKeepInv maxLen op s h)

/-! ### Runs -/

/-- What every step keeps holds at the end of a run when it holds at its start. -/
theorem runsTo_invariant {P : State → Prop} (hstep : ∀ s t, P s → step s = .next t → P t) {k : Nat} {s t : State}
    (hs : P s) (h : RunsTo k s t) : P t := by
  induction k generalizing s with
  | zero => exact runsTo_zero.mp h ▸ hs
  | succ k ih =>
    obtain ⟨u, hu, hr⟩ := runsTo_succ.mp h
    exact ih (hstep s u hs hu) hr

theorem runsTo_extends {k : Nat} {s t : State} (h : RunsTo k s t) : Extends s t :=
  runsTo_invariant (P := Extends s) (fun _ _ hu hv => hu.trans (step_extends hv)) (Extends.of_eq rfl rfl rfl) h

/-- Settles O23: every step extends the state before it, and extension is transitive. -/
theorem runKeepsLengthAndExtendsOutput : Obligations.RunKeepsLengthAndExtendsOutput := by
  intro k s t h
  obtain ⟨hlen, houtq, hinq⟩ := runsTo_extends h
  exact ⟨hlen, houtq, hinq⟩

/-- A running machine has a step (R70). -/
theorem step_next_of_running {s : State} (hs : s.status = .running) : ∃ t, step s = .next t := by
  rw [step_of_running hs]
  cases fetchDecode s with
  | error e => exact ⟨takeFault e s, rfl⟩
  | ok i => exact exec_next i s

/-- A run that has begun goes on for any number of steps, or ends in HALTED or FAULTED before (R146). -/
theorem runsTo_or_ends (k : Nat) {s : State} (hs : s.status ≠ .idle) :
    (∃ t, RunsTo k s t) ∨ ∃ j t, j < k ∧ RunsTo j s t ∧ (t.status = .halted ∨ t.status = .faulted) := by
  induction k generalizing s with
  | zero => exact .inl ⟨s, runsTo_zero.mpr rfl⟩
  | succ k ih =>
    cases hst : s.status with
    | idle => exact absurd hst hs
    | halted => exact .inr ⟨0, s, k.succ_pos, runsTo_zero.mpr rfl, .inl hst⟩
    | faulted => exact .inr ⟨0, s, k.succ_pos, runsTo_zero.mpr rfl, .inr hst⟩
    | running =>
      obtain ⟨u, hu⟩ := step_next_of_running hst
      obtain ⟨t, ht⟩ | ⟨j, t, hj, ht, hend⟩ := ih (step_status_ne_idle hu)
      · exact .inl ⟨t, runsTo_succ.mpr ⟨u, hu, ht⟩⟩
      · exact .inr ⟨j + 1, t, Nat.succ_lt_succ hj, runsTo_succ.mpr ⟨u, hu, ht⟩, hend⟩

/-! ### Every run from a launch -/

theorem launch_inv (maxLen : Nat) (image : List Word) (patches : List (Word × Word)) (input : List Word) (s : State) :
    Inv maxLen (launch maxLen image patches input s) :=
  (resetSatisfiesInv maxLen).hostApplyAll _

/-- Only START moves an IDLE machine on. -/
theorem hostApply_status_of_ne_start {maxLen : Nat} {op : HostOp} {s : State} (hs : s.status = .idle)
    (hop : op ≠ .start) : (hostApply maxLen op s).status = .idle := by
  cases op with
  | reset => rfl
  | load image => simp only [hostApply, hostLoad]; split <;> exact hs
  | patch a w => simp only [hostApply, hostPatch]; split <;> exact hs
  | supply ws => simp only [hostApply, hostSupply]; split <;> exact hs
  | start => exact absurd rfl hop

theorem hostApplyAll_status_of_no_start {maxLen : Nat} {ops : List HostOp} {s : State} (hs : s.status = .idle)
    (hops : ∀ op ∈ ops, op ≠ .start) : (hostApplyAll maxLen ops s).status = .idle := by
  induction ops generalizing s with
  | nil => exact hs
  | cons op ops ih =>
    exact ih (hostApply_status_of_ne_start hs (hops op List.mem_cons_self)) fun o ho =>
      hops o (List.mem_cons_of_mem _ ho)

theorem ne_start_of_mem_patchOps {patches : List (Word × Word)} {op : HostOp} (h : op ∈ patchOps patches) :
    op ≠ .start := by
  obtain ⟨p, -, rfl⟩ := List.mem_map.mp h
  simp

/-- A launch ends in START from IDLE, whatever its image, patches and input are. -/
theorem launch_status (maxLen : Nat) (image : List Word) (patches : List (Word × Word)) (input : List Word)
    (s : State) : (launch maxLen image patches input s).status = .running := by
  have hload : (hostApply maxLen (.load image) State.reset).status = .idle :=
    hostApply_status_of_ne_start rfl (by simp)
  have hpatch := hostApplyAll_status_of_no_start (maxLen := maxLen) hload
    fun op => ne_start_of_mem_patchOps (patches := patches)
  have hsupply := hostApply_status_of_ne_start (maxLen := maxLen) (op := .supply input) hpatch (by simp)
  rw [launch_eq, hostApply_start hsupply, State.setStatus_status]

/-- Settles O24: the launch state is running and satisfies the invariant, every step keeps both, and only HALTED and
FAULTED have no step. -/
theorem everyRunFromLaunchIsSafe : Obligations.EveryRunFromLaunchIsSafe := by
  intro maxLen image patches input s k
  have hl : (launch maxLen image patches input s).status ≠ .idle := by simp [launch_status]
  constructor
  · intro t ht
    exact runsTo_invariant (P := fun u => Inv maxLen u ∧ u.status ≠ .idle)
      (fun u v hu huv => ⟨stepKeepsInv maxLen u v hu.1 huv, step_status_ne_idle huv⟩)
      ⟨launch_inv maxLen image patches input s, hl⟩ ht
  · exact runsTo_or_ends k hl

end Sys2Proof.Machine
end

section
/-! PROOFS. The fetched instruction, and the `ip` after a step that does not fault (spec 10_state.md rule R12,
40_cycle_and_operands.md rules R73 and R78, 43_jumps.md rules R100 and R101). -/

namespace Sys2Proof.Machine

/-! ### What a fetched instruction says of the Words at `ip` -/

/-- The instruction at `ip` for an operation, its modes and raw parameters read off the Words behind the opcode. -/
def specInstr (s : State) (op : Operation) : Instr :=
  assemble ⟨op, specMode (s.wordAt s.ip).toNat 1, specMode (s.wordAt s.ip).toNat 2, specMode (s.wordAt s.ip).toNat 3⟩
    (specRaw s 1) (specRaw s 2) (specRaw s 3)

/-- What is known of the instruction `i` that a fetch delivers: it is the one that the Words at `ip` spell, and none of
its mode digits is above 1. -/
structure Fetched (s : State) (i : Instr) : Prop where
  ipInBounds : inBounds s s.ip = true
  opcode : specOpcode s = opMap i.operation
  instr : i = specInstr s i.operation
  digits : ∀ j, 1 ≤ j → j ≤ paramCount i.operation → specModeDigit (s.wordAt s.ip).toNat j < 2

theorem bind_eq_ok {α β : Type} {x : Except FatalError α} {f : α → Except FatalError β} {b : β} :
    (x >>= f) = .ok b ↔ ∃ a, x = .ok a ∧ f a = .ok b := by
  cases x <;> simp [bind, Except.bind]

/-- A fetched instruction is assembled from a decoded head and its slots (R73). -/
theorem exists_head_of_fetchDecode {s : State} {i : Instr} (hf : fetchDecode s = .ok i) :
    inBounds s s.ip = true ∧ ∃ h p1 p2 p3, decodeHead (s.wordAt s.ip) = .ok h ∧
      fetchSlot (paramCount h.op) 1 s = .ok p1 ∧ fetchSlot (paramCount h.op) 2 s = .ok p2 ∧
      fetchSlot (paramCount h.op) 3 s = .ok p3 ∧ i = assemble h p1 p2 p3 := by
  rw [fetchDecode, bind_eq_ok] at hf
  obtain ⟨v, hv, hf⟩ := hf
  obtain ⟨hb, rfl⟩ := memRead_eq_ok.mp hv
  cases hd : decodeHead (s.wordAt s.ip) with
  | error r => simp [hd] at hf
  | ok h =>
    simp only [hd, bind_eq_ok] at hf
    obtain ⟨p1, h1, p2, h2, p3, h3, hi⟩ := hf
    exact ⟨hb, h, p1, p2, p3, rfl, h1, h2, h3, (Except.ok.inj hi).symm⟩

theorem operation_assemble (h : Head) (p1 p2 p3 : Word) : (assemble h p1 p2 p3).operation = h.op := by
  rcases h with ⟨op, m1, m2, m3⟩
  cases op <;> rfl

/-- Modes and slots that the operation does not have do not count. -/
theorem assemble_congr {op : Operation} {m1 m2 m3 m1' m2' m3' : Mode} {p1 p2 p3 p1' p2' p3' : Word}
    (h1 : 1 ≤ paramCount op → m1 = m1' ∧ p1 = p1') (h2 : 2 ≤ paramCount op → m2 = m2' ∧ p2 = p2')
    (h3 : 3 ≤ paramCount op → m3 = m3' ∧ p3 = p3') :
    assemble ⟨op, m1, m2, m3⟩ p1 p2 p3 = assemble ⟨op, m1', m2', m3'⟩ p1' p2' p3' := by
  cases op <;> simp_all [assemble, paramCount]

/-- The mode the decoder gives a parameter that the operation has (R55, R56). -/
theorem modeAt_eq_specMode {v n j : Nat} (h : j ≤ n) : modeAt v n j = specMode v j := by
  simp only [modeAt, specMode, h, true_and]
  rfl

theorem fetchSlot_eq_specRaw {n j : Nat} {s : State} {p : Word} (h : fetchSlot n j s = .ok p) (hj : j ≤ n) :
    p = specRaw s j := by
  obtain ⟨-, -, hp⟩ | ⟨hn, -⟩ := fetchSlot_eq_ok.mp h
  · exact hp.symm
  · omega

theorem fetched_of_fetchDecode {s : State} {i : Instr} (hf : fetchDecode s = .ok i) : Fetched s i := by
  obtain ⟨hb, h, p1, p2, p3, hd, h1, h2, h3, rfl⟩ := exists_head_of_fetchDecode hf
  obtain ⟨-, hop, hbad, -, hm1, hm2, hm3⟩ := decodeHead_eq_ok.mp hd
  have hparam : ∀ {j m p}, m = modeAt (s.wordAt s.ip).toNat (paramCount h.op) j →
      fetchSlot (paramCount h.op) j s = .ok p → j ≤ paramCount h.op →
      m = specMode (s.wordAt s.ip).toNat j ∧ p = specRaw s j :=
    fun hm hp hj => ⟨hm.trans (modeAt_eq_specMode hj), fetchSlot_eq_specRaw hp hj⟩
  refine ⟨hb, ?opcode, ?instr, ?digits⟩
  case opcode => rw [operation_assemble, ← hop, specOpcode]
  case instr =>
    rw [operation_assemble]
    exact assemble_congr (hparam hm1 h1) (hparam hm2 h2) (hparam hm3 h3)
  case digits =>
    rw [operation_assemble]
    exact fun j hj hn => badModeParam_eq_none.mp hbad j hj (hn.trans (paramCount_le h.op)) hn

/-! ### The `ip` after a step -/

/-- Where a jump that does not fault leads: to its target as it stands when it is taken, else behind itself. -/
theorem conditionalJump_ip {taken : Word → Bool} {p1 p2 : Param} {s t : State}
    (h : complete s (conditionalJump taken p1 p2 s) = .next t) (ht : t.status ≠ .faulted) :
    t.ip = if taken (operandWord s p1) = true then operandWord s p2 else s.ip + 3 := by
  obtain h | ⟨e, -, rfl⟩ := complete_eq_next.mp h
  · obtain ⟨-, he⟩ | ⟨-, -, he⟩ | ⟨-, -, he⟩ := conditionalJump_cases taken p1 p2 s <;> rw [he] at h
    · simp at h
    · simp at h
    · obtain rfl := Except.ok.inj h
      rfl
  · exact absurd rfl ht

theorem exec_jumpIfTrue_ip {p1 p2 : Param} {s t : State} (h : exec (.jumpIfTrue p1 p2) s = .next t)
    (ht : t.status ≠ .faulted) : t.ip = if operandWord s p1 ≠ 0 then operandWord s p2 else s.ip + 3 := by
  simpa using conditionalJump_ip h ht

theorem exec_jumpIfFalse_ip {p1 p2 : Param} {s t : State} (h : exec (.jumpIfFalse p1 p2) s = .next t)
    (ht : t.status ≠ .faulted) : t.ip = if operandWord s p1 = 0 then operandWord s p2 else s.ip + 3 := by
  simpa using conditionalJump_ip h ht

theorem paramCount_of_dest {i : Instr} {d : Param} (hd : i.dest? = some d) (hi : i.operation ≠ .readInput) :
    paramCount i.operation = 3 := by
  cases i with
  | add | multiply | lessThan | equals => rfl
  | readInput => exact absurd rfl hi
  | writeOutput | jumpIfTrue | jumpIfFalse | halt => simp [Instr.dest?] at hd

/-- Every instruction but halt and the jumps advances by its own length (R78). -/
theorem Effect.ip_eq_add {i : Instr} {s t : State} (h : Effect i s t) (ht : t.status ≠ .faulted) (hh : i ≠ .halt)
    (hjt : i.operation ≠ .jumpIfTrue) (hjf : i.operation ≠ .jumpIfFalse) :
    t.ip = s.ip + BitVec.ofNat 64 (1 + paramCount i.operation) := by
  cases h with
  | fault e => exact absurd rfl ht
  | store d r hd hi hb => rw [paramCount_of_dest hd hi]; rfl
  | input d x rest hi hq hb => rw [hi]; rfl
  | output p hi hr => rw [hi]; rfl
  | jump w hi => exact absurd hi (not_or.mpr ⟨hjt, hjf⟩)
  | halt hi => exact absurd hi hh

/-- The default advance as a Word: by the length of the instruction, a not-taken jump included. -/
theorem exec_ip_of_not_redirected {i : Instr} {s t : State} (h : exec i s = .next t) (ht : t.status ≠ .faulted)
    (hh : i ≠ .halt) (hjt : ∀ p1 p2, i = .jumpIfTrue p1 p2 → operandWord s p1 = 0)
    (hjf : ∀ p1 p2, i = .jumpIfFalse p1 p2 → operandWord s p1 ≠ 0) :
    t.ip = s.ip + BitVec.ofNat 64 (1 + paramCount i.operation) := by
  cases i with
  | jumpIfTrue p1 p2 => rw [exec_jumpIfTrue_ip h ht, if_neg (not_not.mpr (hjt p1 p2 rfl))]; rfl
  | jumpIfFalse p1 p2 => rw [exec_jumpIfFalse_ip h ht, if_neg (hjf p1 p2 rfl)]; rfl
  | _ => exact (exec_effect h).ip_eq_add ht hh nofun nofun

/-- A sum of addresses below 2^63 does not wrap. -/
theorem toInt_add_ofNat {a : Word} {n : Nat} (h0 : 0 ≤ a.toInt) (h : a.toInt + n < 2 ^ 63) :
    (a + BitVec.ofNat 64 n).toInt = a.toInt + n := by
  rw [BitVec.toInt_add, BitVec.toInt_ofNat', Int.add_bmod_bmod]
  exact Int.bmod_eq_of_le (by omega) (by omega)

/-- No address of a legal Program is near the end of the Word range, so an advance from it is exact (R4, R12). -/
theorem toInt_advance {maxLen : Nat} {s : State} (hmax : Config.LegalMaxLen maxLen) (hlen : s.len ≤ maxLen)
    (hb : inBounds s s.ip = true) (op : Operation) :
    (s.ip + BitVec.ofNat 64 (1 + paramCount op)).toInt = s.ip.toInt + 1 + (paramCount op : Int) := by
  obtain ⟨h0, h1⟩ := inBounds_iff.mp hb
  have hcap := (Config.legalMaxLen_iff maxLen).mp hmax
  have hn := paramCount_le op
  rw [Config.maxLenCap] at hcap
  rw [toInt_add_ofNat h0 (by omega)]
  omega

/-- Settles O18: each clause from the `ip` after the instruction, the last one exact because `ip` is in bounds. -/
theorem defaultAdvanceIsExact : Obligations.DefaultAdvanceIsExact := by
  intro maxLen s t i hmax hlen hf hstep ht
  obtain ⟨hs, -⟩ := step_cases hstep
  have hx : exec i s = .next t := by rwa [step_of_running hs, hf] at hstep
  refine ⟨?halt, ?takenIfTrue, ?takenIfFalse, ?advance⟩
  case halt =>
    rintro rfl
    obtain rfl := Host.Outcome.next.inj hx
    rfl
  case takenIfTrue =>
    rintro p1 p2 rfl hc
    rw [exec_jumpIfTrue_ip hx ht, if_pos hc]
  case takenIfFalse =>
    rintro p1 p2 rfl hc
    rw [exec_jumpIfFalse_ip hx ht, if_pos hc]
  case advance =>
    intro hh hjt hjf
    rw [exec_ip_of_not_redirected hx ht hh hjt hjf]
    exact toInt_advance hmax hlen (fetched_of_fetchDecode hf).ipInBounds i.operation

end Sys2Proof.Machine
end

section
/-! PROOFS. The priority list of R129 against the step: the faults of the fetch and of the decoder, then those of the
instruction's own effect (spec 60_exceptions.md rule R129), and with it how a run ends (R15, R146). -/

namespace Sys2Proof.Machine

/-! ### Lists of conditions with their faults -/

/-- The fault that a list of conditions reports: that of the first one that holds (R129). -/
def firstOf (cs : List (Bool × FatalError)) : Option FatalError := (cs.find? fun c => c.1).map fun c => c.2

theorem firstFault_eq_firstOf (s : State) : firstFault s = firstOf (faultPriority s) := rfl

@[simp] theorem firstOf_nil : firstOf [] = none := rfl

@[simp] theorem firstOf_cons_true (e : FatalError) (cs : List (Bool × FatalError)) :
    firstOf ((true, e) :: cs) = some e := rfl

@[simp] theorem firstOf_cons_false (e : FatalError) (cs : List (Bool × FatalError)) :
    firstOf ((false, e) :: cs) = firstOf cs := rfl

theorem firstOf_cons (b : Bool) (e : FatalError) (cs : List (Bool × FatalError)) :
    firstOf ((b, e) :: cs) = if b = true then some e else firstOf cs := by
  cases b <;> rfl

theorem firstOf_append (cs ds : List (Bool × FatalError)) : firstOf (cs ++ ds) = (firstOf cs).or (firstOf ds) := by
  induction cs with
  | nil => rfl
  | cons c cs ih =>
    obtain ⟨b, e⟩ := c
    cases b
    · exact ih
    · rfl

/-- The fault of a computation that may raise one. -/
def raised {α : Type} : Except FatalError α → Option FatalError
  | .ok _ => none
  | .error e => some e

@[simp] theorem raised_ok {α : Type} (a : α) : raised (.ok a : Except FatalError α) = none := rfl
@[simp] theorem raised_error {α : Type} (e : FatalError) : raised (.error e : Except FatalError α) = some e := rfl

/-- The conditions of R129 on the instruction value: the fetch, the sign, the opcode, the mode digits, the mode of the
destination. -/
def valueFaults (s : State) : List (Bool × FatalError) := (faultPriority s).take 7

/-- The conditions of R129 on the parameter slots. -/
def slotFaults (s : State) : List (Bool × FatalError) := ((faultPriority s).drop 7).take 3

/-- The conditions of R129 on what the instruction does: operands, result, input, destination. -/
def effectFaults (s : State) : List (Bool × FatalError) := (faultPriority s).drop 10

theorem faultPriority_eq (s : State) : faultPriority s = valueFaults s ++ (slotFaults s ++ effectFaults s) := rfl

/-! ### The tables by opcode number and by operation agree (R53) -/

theorem specParamCount_opMap (op : Operation) : specParamCount (opMap op) = paramCount op := by cases op <;> rfl

theorem specHasDest_opMap (op : Operation) : specHasDest (opMap op) = hasDest op := by cases op <;> rfl

theorem specKnown_opMap (op : Operation) : specKnown (opMap op) = true := by cases op <;> rfl

theorem specKnown_eq_false {opc : Nat} (h : operationOf opc = none) : specKnown opc = false := by
  by_contra hk
  simp only [specKnown, Bool.not_eq_false, decide_eq_true_eq, List.mem_cons, List.not_mem_nil, or_false] at hk
  obtain rfl | rfl | rfl | rfl | rfl | rfl | rfl | rfl | rfl := hk <;> exact absurd h (by decide)

/-! ### The faults of the instruction value -/

/-- The decoder's checks once the opcode is known, in the order of R61. -/
theorem decodeHead_of_known {v : Word} {op : Operation} (hs : 0 ≤ v.toInt)
    (hop : operationOf (v.toNat % 100) = some op) :
    decodeHead v =
      if 1 ≤ paramCount op ∧ 2 ≤ specModeDigit v.toNat 1 then .error (.unknownModeDigit 1)
      else if 2 ≤ paramCount op ∧ 2 ≤ specModeDigit v.toNat 2 then .error (.unknownModeDigit 2)
      else if 3 ≤ paramCount op ∧ 2 ≤ specModeDigit v.toNat 3 then .error (.unknownModeDigit 3)
      else if hasDest op = true ∧ specModeDigit v.toNat (paramCount op) = 1 then
        .error (.writeTargetImmediate (paramCount op))
      else .ok ⟨op, modeAt v.toNat (paramCount op) 1, modeAt v.toNat (paramCount op) 2,
        modeAt v.toNat (paramCount op) 3⟩ := by
  have hd : modeAt v.toNat (paramCount op) (paramCount op) = .immediate ↔
      specModeDigit v.toNat (paramCount op) = 1 := by simp [modeAt_eq_specMode, specMode]
  have hm : modeDigit v.toNat = specModeDigit v.toNat := rfl
  simp only [decodeHead, not_lt.mpr hs, hop, badModeParam_eq, hd, hm, if_false]
  split_ifs <;> rfl

/-- The conditions on the instruction value report what the decoder rejects it for. -/
theorem firstOf_valueFaults {s : State} (hb : inBounds s s.ip = true) :
    firstOf (valueFaults s) = raised ((decodeHead (s.wordAt s.ip)).mapError (rejectError s.ip)) := by
  by_cases hneg : (s.wordAt s.ip).toInt < 0
  · simp [valueFaults, faultPriority, hb, hneg, decodeHead, Except.mapError, rejectError]
  rcases hop : operationOf ((s.wordAt s.ip).toNat % 100) with _ | op
  · simp [valueFaults, faultPriority, hb, hneg, decodeHead, hop, specOpcode, specKnown_eq_false hop, Except.mapError,
      rejectError]
  · have hopc : specOpcode s = opMap op := operationOf_eq_some.mp hop
    rw [decodeHead_of_known (not_lt.mp hneg) hop]
    simp only [valueFaults, faultPriority, hb, hneg, hopc, specParamCount_opMap, specHasDest_opMap, specKnown_opMap,
      List.take, firstOf_cons, Bool.and_eq_true, decide_eq_true_eq, Bool.not_true, decide_false,
      Bool.false_eq_true, if_false]
    split_ifs <;> rfl

/-! ### The faults of the parameter slots -/

/-- What raises first decides; what follows counts when it does not depend on the result. -/
theorem raised_bind {α β : Type} {x : Except FatalError α} {f : α → Except FatalError β} {o : Option FatalError}
    (h : ∀ a, raised (f a) = o) : raised (x >>= f) = (raised x).or o := by
  cases x with
  | ok a => exact h a
  | error e => rfl

theorem raised_fetchSlot (n j : Nat) (s : State) :
    raised (fetchSlot n j s) = firstOf [(decide (j ≤ n) && !inBounds s (s.ip + BitVec.ofNat 64 j),
      .addressingError .paramFetch (s.ip + BitVec.ofNat 64 j))] := by
  by_cases hj : j ≤ n
  · cases hb : inBounds s (s.ip + BitVec.ofNat 64 j) <;> simp [fetchSlot, memRead, hj, hb]
  · simp [fetchSlot, hj]

/-- The conditions on the slots report what fetching the slots raises, in ascending order (R73). -/
theorem firstOf_slotFaults {s : State} {op : Operation} (hop : specOpcode s = opMap op) :
    firstOf (slotFaults s) = (raised (fetchSlot (paramCount op) 1 s)).or
      ((raised (fetchSlot (paramCount op) 2 s)).or ((raised (fetchSlot (paramCount op) 3 s)).or none)) := by
  simp only [raised_fetchSlot, Option.or_none, ← firstOf_append, slotFaults, faultPriority, hop, specParamCount_opMap]
  rfl

theorem fetchDecode_of_reject {s : State} {r : Reject} (hb : inBounds s s.ip = true)
    (hd : decodeHead (s.wordAt s.ip) = .error r) : fetchDecode s = .error (rejectError s.ip r) := by
  rw [fetchDecode, memRead_eq_ok.mpr ⟨hb, rfl⟩]
  simp only [bind, Except.bind, hd]

theorem fetchDecode_of_head {s : State} {h : Head} (hb : inBounds s s.ip = true)
    (hd : decodeHead (s.wordAt s.ip) = .ok h) :
    fetchDecode s = fetchSlot (paramCount h.op) 1 s >>= fun p1 => fetchSlot (paramCount h.op) 2 s >>= fun p2 =>
      fetchSlot (paramCount h.op) 3 s >>= fun p3 => .ok (assemble h p1 p2 p3) := by
  rw [fetchDecode, memRead_eq_ok.mpr ⟨hb, rfl⟩]
  simp only [bind, Except.bind, hd]
  rfl

/-- Phases 1 and 2 raise the first of the conditions on the instruction value and the slots (R72, R73, R129). -/
theorem raised_fetchDecode (s : State) : raised (fetchDecode s) = firstOf (valueFaults s ++ slotFaults s) := by
  rw [firstOf_append]
  cases hb : inBounds s s.ip with
  | false =>
    rw [fetchDecode, memRead_eq_error.mpr ⟨hb, rfl⟩, valueFaults, faultPriority, hb]
    rfl
  | true =>
    rw [firstOf_valueFaults hb]
    cases hd : decodeHead (s.wordAt s.ip) with
    | error r =>
      rw [fetchDecode_of_reject hb hd]
      rfl
    | ok h =>
      obtain ⟨-, hop, -⟩ := decodeHead_eq_ok.mp hd
      rw [fetchDecode_of_head hb hd, firstOf_slotFaults (op := h.op) hop]
      exact raised_bind fun _ => raised_bind fun _ => raised_bind fun _ => rfl

/-! ### The faults of an instruction's effect -/

/-- The operand conditions of R129 for a read parameter: positional and out of bounds. -/
def unreadable (s : State) (p : Param) : Bool := decide (p.mode = .positional) && !inBounds s p.raw

theorem unreadable_eq_false {s : State} {p : Param} : unreadable s p = false ↔ Readable s p := by
  rcases p with ⟨_ | _, raw⟩ <;> simp [unreadable, Readable]

theorem unreadable_eq_true {s : State} {p : Param} : unreadable s p = true ↔ ¬ Readable s p := by
  rw [← unreadable_eq_false, Bool.not_eq_false]

/-- The outcome `o` from `s` is the entry of the fault `f`, or without a fault a state that is not FAULTED. -/
inductive FaultsBy (s : State) : Option FatalError → Host.Outcome State Fault Refusal → Prop where
  | fault (e : FatalError) : FaultsBy s (some e) (.next (takeFault e s))
  | done (t : State) (h : t.status ≠ .faulted) : FaultsBy s none (.next t)

/-- The conditions of R129 on two read parameters, parameter 1 first. -/
def operandFaults (s : State) (p1 p2 : Param) : List (Bool × FatalError) :=
  [(unreadable s p1, .addressingError .operandRead p1.raw), (unreadable s p2, .addressingError .operandRead p2.raw)]

/-- The condition of R129 on a destination. -/
def destFaults (s : State) (d : Param) : List (Bool × FatalError) :=
  [(!inBounds s d.raw, .addressingError .destWrite d.raw)]

@[simp] theorem complete_ok (s t : State) : complete s (.ok t) = .next t := rfl
@[simp] theorem complete_error (s : State) (e : FatalError) : complete s (.error e) = .next (takeFault e s) := rfl

/-- Format F3RRW faults by its operands, its computation and its destination, in this order (R79, R129). -/
theorem binaryStore_faultsBy {f : Word → Word → Except FatalError Word} {p1 p2 d : Param} {s : State}
    {cs : List (Bool × FatalError)} (hs : s.status ≠ .faulted)
    (hf : raised (f (operandWord s p1) (operandWord s p2)) = firstOf cs) :
    FaultsBy s (firstOf (operandFaults s p1 p2 ++ (cs ++ destFaults s d))) (complete s (binaryStore f p1 p2 d s)) := by
  simp only [firstOf_append, ← hf, operandFaults, destFaults]
  obtain ⟨h1, he⟩ | ⟨h1, h2, he⟩ | ⟨h1, h2, e, hr, he⟩ | ⟨h1, h2, r, hr, hb, he⟩ | ⟨h1, h2, r, hr, hb, he⟩ :=
    binaryStore_cases f p1 p2 d s
  · simpa [he, unreadable_eq_true.mpr h1] using FaultsBy.fault _
  · simpa [he, unreadable_eq_false.mpr h1, unreadable_eq_true.mpr h2] using FaultsBy.fault _
  · simpa [he, hr, unreadable_eq_false.mpr h1, unreadable_eq_false.mpr h2] using FaultsBy.fault _
  · simpa [he, hr, hb, unreadable_eq_false.mpr h1, unreadable_eq_false.mpr h2] using FaultsBy.fault _
  · simpa [he, hr, hb, unreadable_eq_false.mpr h1, unreadable_eq_false.mpr h2] using FaultsBy.done (stored s d r) hs


/-- A conditional jump faults by its operands alone (R76, R129). -/
theorem conditionalJump_faultsBy (taken : Word → Bool) (p1 p2 : Param) {s : State} (hs : s.status ≠ .faulted) :
    FaultsBy s (firstOf (operandFaults s p1 p2)) (complete s (conditionalJump taken p1 p2 s)) := by
  obtain ⟨h1, he⟩ | ⟨h1, h2, he⟩ | ⟨h1, h2, he⟩ := conditionalJump_cases taken p1 p2 s
  · simpa [operandFaults, he, unreadable_eq_true.mpr h1] using FaultsBy.fault _
  · simpa [operandFaults, he, unreadable_eq_false.mpr h1, unreadable_eq_true.mpr h2] using FaultsBy.fault _
  · rw [he, operandFaults, unreadable_eq_false.mpr h1, unreadable_eq_false.mpr h2]
    exact .done _ hs

theorem execReadInput_faultsBy (d : Param) {s : State} (hs : s.status ≠ .faulted) :
    FaultsBy s (firstOf ((s.inq.isEmpty, .inputExhaustion) :: destFaults s d)) (execReadInput d s) := by
  obtain ⟨hq, he⟩ | ⟨x, rest, hq, hb, he⟩ | ⟨x, rest, hq, hb, he⟩ := execReadInput_cases d s
  · simpa [he, hq] using FaultsBy.fault _
  · simpa [he, hq, destFaults, hb] using FaultsBy.fault _
  · rw [he, hq, destFaults, hb]
    exact .done _ hs

theorem execWriteOutput_faultsBy (p : Param) {s : State} (hs : s.status ≠ .faulted) :
    FaultsBy s (firstOf [(unreadable s p, .addressingError .operandRead p.raw)]) (execWriteOutput p s) := by
  obtain ⟨h, he⟩ | ⟨h, he⟩ := execWriteOutput_cases p s
  · simpa [he, unreadable_eq_true.mpr h] using FaultsBy.fault _
  · rw [he, unreadable_eq_false.mpr h]
    exact .done _ hs

theorem raised_aluChecked (op : AluOp) (k : ArithKind) (a b : Word) :
    raised (aluChecked op k a b) = firstOf [((alu op a b).overflow, .arithmeticOverflow k)] := by
  cases h : (alu op a b).overflow <;> simp [aluChecked, h]

/-- The conditions of R129 on the effect of an instruction, in the terms of its own parameters. -/
def instrFaults (s : State) : Instr → List (Bool × FatalError)
  | .add p1 p2 d => operandFaults s p1 p2 ++
      ([((alu .add (operandWord s p1) (operandWord s p2)).overflow, .arithmeticOverflow .add)] ++ destFaults s d)
  | .multiply p1 p2 d => operandFaults s p1 p2 ++
      ([((alu .mul (operandWord s p1) (operandWord s p2)).overflow, .arithmeticOverflow .mul)] ++ destFaults s d)
  | .readInput d => (s.inq.isEmpty, .inputExhaustion) :: destFaults s d
  | .writeOutput p1 => [(unreadable s p1, .addressingError .operandRead p1.raw)]
  | .jumpIfTrue p1 p2 => operandFaults s p1 p2
  | .jumpIfFalse p1 p2 => operandFaults s p1 p2
  | .lessThan p1 p2 d => operandFaults s p1 p2 ++ ([] ++ destFaults s d)
  | .equals p1 p2 d => operandFaults s p1 p2 ++ ([] ++ destFaults s d)
  | .halt => []

/-- An instruction faults by the first of its conditions that holds, and by nothing else. -/
theorem exec_faultsBy (i : Instr) {s : State} (hs : s.status ≠ .faulted) :
    FaultsBy s (firstOf (instrFaults s i)) (exec i s) := by
  cases i with
  | add p1 p2 d => exact binaryStore_faultsBy hs (raised_aluChecked .add .add _ _)
  | multiply p1 p2 d => exact binaryStore_faultsBy hs (raised_aluChecked .mul .mul _ _)
  | readInput d => exact execReadInput_faultsBy d hs
  | writeOutput p => exact execWriteOutput_faultsBy p hs
  | jumpIfTrue p1 p2 => exact conditionalJump_faultsBy _ p1 p2 hs
  | jumpIfFalse p1 p2 => exact conditionalJump_faultsBy _ p1 p2 hs
  | lessThan p1 p2 d => exact binaryStore_faultsBy hs rfl
  | equals p1 p2 d => exact binaryStore_faultsBy hs rfl
  | halt => exact .done _ nofun

/-! ### The conditions of R129 on the effect, read off the fetched instruction -/

/-- Parameter `j` of the instruction at `ip`, in the terms in which R129's list reads it off the state. -/
def specParam (s : State) (j : Nat) : Param := ⟨specMode (s.wordAt s.ip).toNat j, specRaw s j⟩

theorem operandWord_specParam (s : State) (j : Nat) : operandWord s (specParam s j) = specVal s j := by
  by_cases h : specModeDigit (s.wordAt s.ip).toNat j = 1 <;> simp [operandWord, specParam, specMode, specVal, h]

theorem specReadCount_opMap_le (op : Operation) : specReadCount (opMap op) ≤ paramCount op := by cases op <;> decide

/-- The operand conditions of R129 are about the read parameters of the fetched instruction. -/
theorem Fetched.specBadOperand_eq {s : State} {i : Instr} (h : Fetched s i) {j : Nat} (h1 : 1 ≤ j) :
    specBadOperand s j = (decide (j ≤ specReadCount (opMap i.operation)) && unreadable s (specParam s j)) := by
  by_cases hj : j ≤ specReadCount (opMap i.operation)
  · have hd := h.digits j h1 (hj.trans (specReadCount_opMap_le _))
    have hm : (specParam s j).mode = .positional ↔ specModeDigit (s.wordAt s.ip).toNat j = 0 := by
      simp only [specParam, specMode, ite_eq_right_iff, reduceCtorEq, imp_false]
      omega
    simp only [specBadOperand, unreadable, h.opcode, hm, Bool.and_assoc]
    rfl
  · simp [specBadOperand, h.opcode, hj]

/-- Operation by operation, the conditions of R129 on the effect are those of the fetched instruction. -/
theorem Fetched.firstOf_effectFaults {s : State} {i : Instr} (h : Fetched s i) :
    firstOf (effectFaults s) = firstOf (instrFaults s i) := by
  simp only [effectFaults, faultPriority, List.drop, h.specBadOperand_eq le_rfl, h.specBadOperand_eq one_le_two,
    h.opcode, specParamCount_opMap, specHasDest_opMap, ← operandWord_specParam]
  obtain ⟨-, -, hi, -⟩ := h
  generalize i.operation = op at hi ⊢
  subst hi
  cases op <;> rfl

/-! ### The step and the end of a run -/

/-- A running machine's step faults by the first condition of R129 that holds, and by nothing else. -/
theorem step_faultsBy {s : State} (hs : s.status = .running) : FaultsBy s (firstFault s) (step s) := by
  rw [firstFault_eq_firstOf, faultPriority_eq, ← List.append_assoc, firstOf_append, ← raised_fetchDecode,
    step_of_running hs]
  cases hf : fetchDecode s with
  | error e => exact .fault e
  | ok i =>
    rw [raised_ok, Option.none_or, (fetched_of_fetchDecode hf).firstOf_effectFaults]
    exact exec_faultsBy i (by simp [hs])

theorem step_faulted_iff {s t : State} (h : step s = .next t) :
    t.status = .faulted ↔ (firstFault s).isSome = true := by
  have hby := step_faultsBy (step_cases h).1
  rw [h] at hby
  generalize firstFault s = f at hby ⊢
  cases hby with
  | fault e => simp
  | done t ht => simp [ht]

theorem step_halted_iff {s t : State} (h : step s = .next t) :
    t.status = .halted ↔ fetchDecode s = .ok .halt := by
  constructor
  · intro ht
    obtain hf | hr | ⟨-, hh⟩ := step_status_cases h
    · simp [ht] at hf
    · simp [ht] at hr
    · exact hh
  · intro hf
    rw [step_of_running (step_cases h).1, hf] at h
    obtain rfl := Host.Outcome.next.inj h
    rfl

/-- Settles O16: the three statuses a step can leave, HALTED by halt, FAULTED by the list of R129. -/
theorem runEndsByHaltOrByFault : Obligations.RunEndsByHaltOrByFault := by
  intro s t h
  have hrunning : t.status = .running ↔ ¬ t.status = .halted ∧ ¬ t.status = .faulted := by
    obtain ht | ht | ⟨ht, -⟩ := step_status_cases h <;> simp [ht]
  refine ⟨step_halted_iff h, step_faulted_iff h, ?_⟩
  rw [hrunning, step_halted_iff h, step_faulted_iff h, Option.not_isSome_iff_eq_none]

end Sys2Proof.Machine
end

section
/-! PROOFS. The Program Store (spec 20_memory.md rules R31 to R33, R40 and R43): the two checked accesses, and that what
a step stores is in the code that the next step fetches from. -/

namespace Sys2Proof.Machine

/-! ### The checked accesses -/

theorem inBounds_eq_false_iff {s : State} {a : Word} :
    inBounds s a = false ↔ a.toInt < 0 ∨ (s.len : Int) ≤ a.toInt := by
  rw [← Bool.not_eq_true, inBounds_iff]
  omega

/-- The two spellings of the address of a Word that is not negative. -/
theorem toNat_toInt {a : Word} (h : 0 ≤ a.toInt) : a.toInt.toNat = a.toNat := by
  rw [toInt_eq_toNat h, Int.toNat_natCast]

/-- Settles O42: the bounds check decides between the Word and the fault. -/
theorem memReadIsChecked : Obligations.MemReadIsChecked := by
  intro s a kind
  constructor
  · intro h0 h1
    rw [toNat_toInt h0]
    exact memRead_eq_ok.mpr ⟨inBounds_iff.mpr ⟨h0, h1⟩, rfl⟩
  · intro h
    exact memRead_eq_error.mpr ⟨inBounds_eq_false_iff.mpr h, rfl⟩

/-- Settles O43: the new memory is `Memory.write` of the old one, which in canonical form differs at its address only. -/
theorem memWriteReplacesExactlyOneWord : Obligations.MemWriteReplacesExactlyOneWord := by
  intro s a v hwf
  constructor
  · intro h0 h1
    rw [toNat_toInt h0]
    exact ⟨Memory.write s.mem a.toNat v, memWrite_eq_ok.mpr ⟨inBounds_iff.mpr ⟨h0, h1⟩, rfl⟩,
      Memory.read_write_same hwf _ _, fun b hb => Memory.read_write_other hwf v hb⟩
  · intro h
    exact memWrite_eq_error.mpr ⟨inBounds_eq_false_iff.mpr h, rfl⟩

/-! ### What a completed instruction stores -/

/-- An instruction of format F3RRW that does not fault has stored the Word it computed, in bounds (R71, R79). -/
theorem binaryStore_mem {f : Word → Word → Except FatalError Word} {p1 p2 d : Param} {s t : State} {w : Word}
    (hw : ∀ r, f (operandWord s p1) (operandWord s p2) = .ok r → r = w)
    (h : complete s (binaryStore f p1 p2 d s) = .next t) (ht : t.status ≠ .faulted) :
    inBounds s d.raw = true ∧ t.mem = Memory.write s.mem d.raw.toNat w := by
  obtain h | ⟨e, -, rfl⟩ := complete_eq_next.mp h
  · obtain ⟨-, he⟩ | ⟨-, -, he⟩ | ⟨-, -, e, -, he⟩ | ⟨-, -, r, -, -, he⟩ | ⟨-, -, r, hr, hb, he⟩ :=
      binaryStore_cases f p1 p2 d s <;> rw [he] at h
    · simp at h
    · simp at h
    · simp at h
    · simp at h
    · obtain rfl := Except.ok.inj h
      exact ⟨hb, by rw [stored_mem, hw r hr]⟩
  · exact absurd rfl ht

theorem eq_aluWord_of_aluChecked {op : AluOp} {k : ArithKind} {a b r : Word} (h : aluChecked op k a b = .ok r) :
    r = aluWord op a b :=
  (aluChecked_eq_ok.mp h).2.symm

/-- read-input that does not fault has stored the head of the input in bounds (R95). -/
theorem execReadInput_mem {d : Param} {s t : State} (h : execReadInput d s = .next t)
    (ht : t.status ≠ .faulted) :
    inBounds s d.raw = true ∧ t.mem = Memory.write s.mem d.raw.toNat (s.inq.headD 0) := by
  obtain ⟨-, he⟩ | ⟨x, rest, -, -, he⟩ | ⟨x, rest, hq, hb, he⟩ := execReadInput_cases d s <;> rw [he] at h <;>
    obtain rfl := Host.Outcome.next.inj h
  · exact absurd rfl ht
  · exact absurd rfl ht
  · exact ⟨hb, by rw [hq, List.headD_cons]⟩

theorem aluWord_lt (a b : Word) : aluWord .lt a b = if a.toInt < b.toInt then 1 else 0 := by
  rw [aluWord, alu_lt_result]
  split <;> rfl

theorem aluWord_eq (a b : Word) : aluWord .eq a b = if a = b then 1 else 0 := by
  simp only [aluWord, alu_eq_result, BitVec.toInt_inj]
  split <;> rfl

/-- A storing instruction that does not fault has its destination in bounds and puts `resultWord` there, and that is
all it does to memory (R79, R95). -/
theorem exec_mem_of_dest {i : Instr} {d : Param} {s t : State} (hd : i.dest? = some d) (h : exec i s = .next t)
    (ht : t.status ≠ .faulted) :
    inBounds s d.raw = true ∧ t.mem = Memory.write s.mem d.raw.toNat (resultWord i s) := by
  cases i with
  | add p1 p2 d' =>
    obtain rfl := Option.some.inj hd
    exact binaryStore_mem (fun _ => eq_aluWord_of_aluChecked) h ht
  | multiply p1 p2 d' =>
    obtain rfl := Option.some.inj hd
    exact binaryStore_mem (fun _ => eq_aluWord_of_aluChecked) h ht
  | lessThan p1 p2 d' =>
    obtain rfl := Option.some.inj hd
    exact binaryStore_mem (fun _ hr => (Except.ok.inj hr).symm.trans (aluWord_lt _ _)) h ht
  | equals p1 p2 d' =>
    obtain rfl := Option.some.inj hd
    exact binaryStore_mem (fun _ hr => (Except.ok.inj hr).symm.trans (aluWord_eq _ _)) h ht
  | readInput d' =>
    obtain rfl := Option.some.inj hd
    exact execReadInput_mem h ht
  | writeOutput | jumpIfTrue | jumpIfFalse | halt => cases hd

/-! ### The code at the next `ip` -/

/-- The code at `ip` holds the Word of every address from `ip` to the end of the Program Store. -/
theorem codeAt_getElem? {s : State} {j : Nat} (h : s.ip.toNat + j < s.len) :
    (codeAt s)[j]? = some (Memory.read s.mem (s.ip.toNat + j)) := by
  have hj : j < (codeAt s).length := by rw [codeAt, Memory.words_length]; omega
  rw [List.getElem?_eq_getElem hj]
  exact congrArg some (Memory.getElem_words hj)

/-- Settles O19: the code at the new `ip` is read from the memory that the step has written. -/
theorem nextFetchSeesTheStore : Obligations.NextFetchSeesTheStore := by
  intro maxLen s t i d j _ hinv hf hd hstep ht _ hj
  have hx : exec i s = .next t := by rwa [step_of_running (step_cases hstep).1, hf] at hstep
  obtain ⟨hb, hmem⟩ := exec_mem_of_dest hd hx ht
  have hlt : t.ip.toNat + j < t.len := by
    rw [← hj, (step_extends hstep).len]
    exact toNat_lt_of_inBounds hb
  rw [codeAt_getElem? hlt, hmem, ← hj, Memory.read_write_same hinv.memWf]

end Sys2Proof.Machine
end

section
/-! PROOFS. The decoder against the encoder (spec 30_encoding.md rules R50 to R64): the classes of the decoder, the
decimal digits of an instruction value, and the round trip in both directions. -/

namespace Sys2Proof

open Sys2Proof.Machine

/-! ### The decoder's outcome for each class of R61 -/

theorem decodeHead_of_negative {v : Word} (hs : v.toInt < 0) : decodeHead v = .error (.negativeInstruction v) :=
  if_pos hs

theorem decodeHead_of_unknownOpcode {v : Word} (hs : 0 ≤ v.toInt) (hop : operationOf (v.toNat % 100) = none) :
    decodeHead v = .error (.unknownOpcode v) := by
  rw [decodeHead, if_neg (not_lt.mpr hs), hop]

theorem decodeHead_of_badModeParam {v : Word} {op : Operation} {j : Nat} (hs : 0 ≤ v.toInt)
    (hop : v.toNat % 100 = opMap op) (hb : badModeParam v.toNat (paramCount op) = some j) :
    decodeHead v = .error (.unknownModeDigit j) := by
  rw [decodeHead, if_neg (not_lt.mpr hs), operationOf_eq_some.mpr hop]
  simp only [hb]

theorem decodeHead_of_immediateDest {v : Word} {op : Operation} (hs : 0 ≤ v.toInt)
    (hop : v.toNat % 100 = opMap op) (hb : badModeParam v.toNat (paramCount op) = none) (hd : hasDest op = true)
    (hm : modeAt v.toNat (paramCount op) (paramCount op) = .immediate) :
    decodeHead v = .error (.writeTargetImmediate (paramCount op)) := by
  rw [decodeHead, if_neg (not_lt.mpr hs), operationOf_eq_some.mpr hop]
  simp only [hb, if_pos (And.intro hd hm)]

/-! ### Decimal digits -/

/-- A number's last `m` decimal digits are its remainder by 10^m. -/
theorem mod_pow_eq_iff_digit {a b : Nat} (m : Nat) :
    a % 10 ^ m = b % 10 ^ m ↔ ∀ k, k < m → digit a k = digit b k := by
  induction m with
  | zero => simp [Nat.mod_one]
  | succ m ih =>
    have hsplit : ∀ c : Nat, c % 10 ^ (m + 1) = c % 10 ^ m + 10 ^ m * digit c m := fun c => Nat.mod_pow_succ
    rw [Nat.forall_lt_succ_right, ← ih]
    constructor
    · intro h
      have hmod : a % 10 ^ m = b % 10 ^ m := Nat.ModEq.of_dvd (pow_dvd_pow 10 m.le_succ) h
      rw [hsplit, hsplit, hmod] at h
      exact ⟨hmod, Nat.eq_of_mul_eq_mul_left (Nat.pow_pos (by omega)) (Nat.add_left_cancel h)⟩
    · rintro ⟨hmod, hd⟩
      rw [hsplit, hsplit, hmod, hd]

/-- The digits that the decoder examines of a value with `n` parameters: the opcode's two and the `n` mode digits. -/
theorem mod_pow_eq_of_opcode_of_modeDigit {a b n : Nat} (hop : a % 100 = b % 100)
    (hm : ∀ j, j < n → modeDigit a (j + 1) = modeDigit b (j + 1)) : a % 10 ^ (n + 2) = b % 10 ^ (n + 2) := by
  rw [mod_pow_eq_iff_digit]
  intro k hk
  match k with
  | 0 => exact (mod_pow_eq_iff_digit 2).mp hop 0 (by omega)
  | 1 => exact (mod_pow_eq_iff_digit 2).mp hop 1 (by omega)
  | j + 2 => exact hm j (by omega)

/-! ### Parameters by number -/

/-- Parameter `j + 1` of an instruction; a number above its parameter count names no parameter. -/
def Instr.param (i : Instr) (j : Nat) : Param := i.params.getD j ⟨.positional, 0⟩

theorem Instr.param_of_le {i : Instr} {j : Nat} (h : paramCount i.operation ≤ j) : i.param j = ⟨.positional, 0⟩ :=
  List.getD_eq_default _ _ (by rwa [params_length])

/-- An ill-formed instruction is one whose last parameter is an immediate destination (R58). -/
theorem Instr.wellFormed_eq_false {i : Instr} :
    i.wellFormed = false ↔
      hasDest i.operation = true ∧ (i.param (paramCount i.operation - 1)).mode = .immediate := by
  have hm : ∀ m : Mode, (m == .positional) = false ↔ m = .immediate := by intro m; cases m <;> decide
  cases i with
  | add | multiply | readInput | lessThan | equals => exact (hm _).trans (and_iff_right rfl).symm
  | writeOutput | jumpIfTrue | jumpIfFalse | halt => exact ⟨nofun, nofun⟩

theorem one_le_paramCount_of_hasDest {op : Operation} (h : hasDest op = true) : 1 ≤ paramCount op := by
  revert h
  cases op <;> decide

/-! ### The value that the encoder writes -/

theorem headDigits (i : Instr) : Laws.HeadDigits.Statement i := by
  cases i with
  | add p1 p2 d => exact Laws.HeadDigits.add p1 p2 d
  | multiply p1 p2 d => exact Laws.HeadDigits.multiply p1 p2 d
  | readInput d => exact Laws.HeadDigits.readInput d
  | writeOutput p1 => exact Laws.HeadDigits.writeOutput p1
  | jumpIfTrue p1 p2 => exact Laws.HeadDigits.jumpIfTrue p1 p2
  | jumpIfFalse p1 p2 => exact Laws.HeadDigits.jumpIfFalse p1 p2
  | lessThan p1 p2 d => exact Laws.HeadDigits.lessThan p1 p2 d
  | equals p1 p2 d => exact Laws.HeadDigits.equals p1 p2 d
  | halt => exact Laws.HeadDigits.halt

theorem modeDigit_encodeHead {i : Instr} {j : Nat} (h : j < paramCount i.operation) :
    modeDigit (encodeHead i) (j + 1) = modeCode (i.param j).mode := by
  obtain ⟨-, -, hdigit⟩ := headDigits i
  rw [hdigit j h]
  exact List.getD_map i.params ⟨.positional, 0⟩ fun p => modeCode p.mode

theorem modeAt_encodeHead (i : Instr) (j : Nat) :
    modeAt (encodeHead i) (paramCount i.operation) (j + 1) = (i.param j).mode := by
  by_cases h : j < paramCount i.operation
  · rw [modeAt, modeDigit_encodeHead h]
    cases (i.param j).mode <;> simp [modeCode, Nat.succ_le_iff.mpr h]
  · rw [modeAt, if_neg (by omega), Instr.param_of_le (not_lt.mp h)]

theorem badModeParam_encodeHead (i : Instr) : badModeParam (encodeHead i) (paramCount i.operation) = none := by
  rw [badModeParam_eq_none]
  intro j h1 _ hn
  obtain ⟨k, rfl⟩ := Nat.exists_eq_add_of_le' h1
  rw [modeDigit_encodeHead hn]
  exact modeCode_lt _

theorem encodeHead_toInt_nonneg (i : Instr) : 0 ≤ (BitVec.ofNat 64 (encodeHead i)).toInt := by
  have hlt := encodeHead_lt i
  have hpow : 10 ^ paramCount i.operation ≤ 10 ^ 3 := Nat.pow_le_pow_right (by omega) (paramCount_le _)
  rw [BitVec.toInt_eq_toNat_of_lt (by rw [encodeHead_toNat]; omega)]
  exact Int.natCast_nonneg _

/-- The head of an instruction: its operation and the modes of its parameters. -/
def Instr.head (i : Instr) : Head := ⟨i.operation, (i.param 0).mode, (i.param 1).mode, (i.param 2).mode⟩

theorem modeAt_dest_encodeHead {i : Instr} (hd : hasDest i.operation = true) :
    modeAt (encodeHead i) (paramCount i.operation) (paramCount i.operation)
      = (i.param (paramCount i.operation - 1)).mode := by
  rw [← modeAt_encodeHead, Nat.sub_add_cancel (one_le_paramCount_of_hasDest hd)]

theorem decodeHead_encodeHead {i : Instr} (hw : i.wellFormed = true) :
    decodeHead (BitVec.ofNat 64 (encodeHead i)) = .ok i.head := by
  rw [decodeHead_eq_ok, encodeHead_toNat]
  refine ⟨encodeHead_toInt_nonneg i, encodeHead_mod i, badModeParam_encodeHead i, ?_,
    (modeAt_encodeHead i 0).symm, (modeAt_encodeHead i 1).symm, (modeAt_encodeHead i 2).symm⟩
  rintro ⟨hd, hm⟩
  have hill : i.wellFormed = false := Instr.wellFormed_eq_false.mpr ⟨hd, (modeAt_dest_encodeHead hd).symm.trans hm⟩
  rw [hw] at hill
  exact Bool.noConfusion hill

theorem decodeHead_encodeHead_of_ill_formed {i : Instr} (hw : i.wellFormed = false) :
    decodeHead (BitVec.ofNat 64 (encodeHead i)) = .error (.writeTargetImmediate (paramCount i.operation)) := by
  obtain ⟨hd, hm⟩ := Instr.wellFormed_eq_false.mp hw
  refine decodeHead_of_immediateDest (encodeHead_toInt_nonneg i) ?_ ?_ hd ?_ <;> rw [encodeHead_toNat]
  · exact encodeHead_mod i
  · exact badModeParam_encodeHead i
  · rw [modeAt_dest_encodeHead hd, hm]

/-! ### Decode of encode -/

theorem decode_cons_of_reject {v : Word} {r : Reject} (hd : decodeHead v = .error r) (ws : List Word) :
    decode (v :: ws) = .error r := by
  simp only [decode, hd]

theorem decode_cons_of_head {v : Word} {h : Head} (hd : decodeHead v = .ok h) (ws : List Word) :
    decode (v :: ws) =
      if ws.length < paramCount h.op then .error (.missingSlot (ws.length + 1))
      else .ok (assemble h (ws.getD 0 0) (ws.getD 1 0) (ws.getD 2 0), ws.drop (paramCount h.op)) := by
  simp only [decode, hd]

/-- The head of an instruction and its raw parameters, whatever follows them, assemble to the instruction. -/
theorem assemble_head_raw (i : Instr) (rest : List Word) :
    assemble i.head ((i.params.map Param.raw ++ rest).getD 0 0) ((i.params.map Param.raw ++ rest).getD 1 0)
      ((i.params.map Param.raw ++ rest).getD 2 0) = i := by
  cases i <;> rfl

/-- Settles O1: the digits of the encoded head are the modes, and the slots behind it hold the raw Words. -/
theorem decodeEncodeRoundTrip : Obligations.DecodeEncodeRoundTrip := by
  intro i rest hw
  have hlen : (i.params.map Param.raw).length = paramCount i.head.op := by rw [List.length_map, params_length]; rfl
  rw [encode, List.cons_append, decode_cons_of_head (decodeHead_encodeHead hw), assemble_head_raw, if_neg, ← hlen,
    List.drop_left]
  rw [List.length_append, hlen]
  omega

/-- Settles O7: the encoded head carries the immediate mode of the destination, which the decoder rejects. -/
theorem immediateDestinationIsRejected : Obligations.ImmediateDestinationIsRejected :=
  fun _ _ hw => decode_cons_of_reject (decodeHead_encodeHead_of_ill_formed hw) _

/-! ### Encode of decoded -/

theorem decode_cons_eq_ok {v : Word} {ws rest : List Word} {i : Instr} :
    decode (v :: ws) = .ok (i, rest) ↔
      ∃ h, decodeHead v = .ok h ∧ paramCount h.op ≤ ws.length ∧
        i = assemble h (ws.getD 0 0) (ws.getD 1 0) (ws.getD 2 0) ∧ rest = ws.drop (paramCount h.op) := by
  cases hd : decodeHead v with
  | error r => simp [decode_cons_of_reject hd]
  | ok h =>
    rw [decode_cons_of_head hd]
    by_cases hl : ws.length < paramCount h.op
    · simp [hl, not_le.mpr hl]
    · simp [hl, not_lt.mp hl, eq_comm]

theorem params_assemble (h : Head) (p1 p2 p3 : Word) :
    (assemble h p1 p2 p3).params = [⟨h.m1, p1⟩, ⟨h.m2, p2⟩, ⟨h.m3, p3⟩].take (paramCount h.op) := by
  rcases h with ⟨op, m1, m2, m3⟩
  cases op <;> rfl

/-- The modes of an assembled instruction are those that the decoder read off the instruction value. -/
theorem mode_param_assemble {v : Word} {h : Head} (hd : decodeHead v = .ok h) (p1 p2 p3 : Word) {j : Nat}
    (hj : j < paramCount h.op) :
    ((assemble h p1 p2 p3).param j).mode = modeAt v.toNat (paramCount h.op) (j + 1) := by
  obtain ⟨-, -, -, -, h1, h2, h3⟩ := decodeHead_eq_ok.mp hd
  have hj3 : j < 3 := hj.trans_le (paramCount_le h.op)
  rw [Instr.param, params_assemble, List.getD_eq_getElem?_getD, List.getElem?_take_of_lt hj]
  interval_cases j
  · exact h1
  · exact h2
  · exact h3

/-- An examined mode digit of a legal value is the code of the mode that the decoder gives it (R56). -/
theorem modeCode_modeAt {v n j : Nat} (hj : j ≤ n) (hd : modeDigit v j < 2) : modeCode (modeAt v n j) = modeDigit v j := by
  by_cases h : modeDigit v j = 1
  · rw [modeAt, if_pos ⟨hj, h⟩, h, modeCode]
  · rw [modeAt, if_neg fun hc => h hc.2, modeCode]
    omega

theorem wellFormed_assemble {v : Word} {h : Head} (hd : decodeHead v = .ok h) (p1 p2 p3 : Word) :
    (assemble h p1 p2 p3).wellFormed = true := by
  obtain ⟨-, -, -, hdest, -⟩ := decodeHead_eq_ok.mp hd
  rw [← Bool.not_eq_false, Instr.wellFormed_eq_false, operation_assemble]
  rintro ⟨hw, hm⟩
  have h1 := one_le_paramCount_of_hasDest hw
  rw [mode_param_assemble hd p1 p2 p3 (by omega), Nat.sub_add_cancel h1] at hm
  exact hdest ⟨hw, hm⟩

/-- Encoding an assembled instruction gives back the examined digits of the value it was decoded from. -/
theorem encodeHead_assemble {v : Word} {h : Head} (hd : decodeHead v = .ok h) (p1 p2 p3 : Word) :
    encodeHead (assemble h p1 p2 p3) = v.toNat % 10 ^ (paramCount h.op + 2) := by
  obtain ⟨-, hop, hbad, -⟩ := decodeHead_eq_ok.mp hd
  obtain ⟨hlt, hmod, -⟩ := headDigits (assemble h p1 p2 p3)
  have hj : ∀ {j}, j < paramCount h.op → j < paramCount (assemble h p1 p2 p3).operation := fun {j} hj => by
    rwa [operation_assemble]
  rw [operation_assemble] at hlt hmod
  rw [← Nat.mod_eq_of_lt hlt]
  refine mod_pow_eq_of_opcode_of_modeDigit (hmod.trans hop.symm) fun j hlj => ?_
  have hdigit : modeDigit v.toNat (j + 1) < 2 :=
    badModeParam_eq_none.mp hbad (j + 1) (by omega) ((Nat.succ_le_of_lt hlj).trans (paramCount_le h.op)) hlj
  rw [modeDigit_encodeHead (hj hlj), mode_param_assemble hd p1 p2 p3 hlj, modeCode_modeAt hlj hdigit]

/-- The first `n` of at most three slots are the Words that stand there. -/
theorem take_getD_eq_take {ws : List Word} {n : Nat} (h3 : n ≤ 3) (hn : n ≤ ws.length) :
    [ws.getD 0 0, ws.getD 1 0, ws.getD 2 0].take n = ws.take n := by
  match ws, n, h3, hn with
  | _, 0, _, _ => simp
  | _ :: _, 1, _, _ => rfl
  | _ :: _ :: _, 2, _, _ => rfl
  | _ :: _ :: _ :: _, 3, _, _ => rfl

/-- Settles O2: what the decoder assembled has the modes of the examined digits and the raw Words of its slots. -/
theorem encodeOfDecodedKeepsExaminedDigits : Obligations.EncodeOfDecodedKeepsExaminedDigits := by
  intro v ws i rest hdec
  obtain ⟨h, hd, hl, rfl, rfl⟩ := decode_cons_eq_ok.mp hdec
  obtain ⟨hs, -⟩ := decodeHead_eq_ok.mp hd
  refine ⟨wellFormed_assemble hd _ _ _, hs, ?_, ?_⟩
  · rw [operation_assemble, encodeHead_assemble hd]
  · rw [params_assemble, List.map_take, List.map_cons, List.map_cons, List.map_cons, List.map_nil,
      take_getD_eq_take (paramCount_le h.op) hl, List.take_append_drop]

end Sys2Proof
end

section
/-! PROOFS. The classification of instruction values (spec 30_encoding.md rules R52 to R61): the five classes against
the tables by number, the 28 canonical values, and the digits that the decoder does not examine. -/

namespace Sys2Proof

open Sys2Proof.Machine

/-- Settles O3: the decoder evaluates each of the nine Word lists. -/
theorem specWordsDecode : Obligations.SpecWordsDecode :=
  ⟨rfl, rfl, rfl, rfl, rfl, rfl, rfl, rfl, rfl⟩

/-! ### The five classes -/

theorem specOperation_eq_some {n : Nat} {op : Operation} : specOperation n = some op ↔ n = opMap op := by
  constructor
  · intro h
    unfold specOperation at h
    split at h <;> cases h <;> rfl
  · rintro rfl
    cases op <;> rfl

/-- The two tables of opcodes agree (R53). -/
theorem specOperation_eq_operationOf (n : Nat) : specOperation n = operationOf n :=
  Option.ext fun _ => specOperation_eq_some.trans operationOf_eq_some.symm

theorem modeAt_eq_immediate {v n j : Nat} (hj : j ≤ n) : modeAt v n j = .immediate ↔ specModeDigit v j = 1 := by
  simp [modeAt_eq_specMode hj, specMode]

/-- Settles O4: one law of the decoder for each class, read through the tables by number. -/
theorem everyInstructionValueIsClassified : Obligations.EveryInstructionValueIsClassified := by
  intro v
  refine ⟨decodeHead_of_negative, fun hs hop => ?unknownOpcode, fun op hs hop => ?known⟩
  case unknownOpcode =>
    exact decodeHead_of_unknownOpcode hs ((specOperation_eq_operationOf _).symm.trans hop)
  case known =>
    have hop := specOperation_eq_some.mp hop
    rw [hop, specParamCount_opMap, specHasDest_opMap]
    refine ⟨fun j h1 hn hj hlow => ?badDigit, fun hdigits => ⟨fun hd hm => ?immediateDest, fun hdest => ?legal⟩⟩
    case badDigit =>
      exact decodeHead_of_badModeParam hs hop
        (badModeParam_eq_some.mpr ⟨h1, hn.trans (paramCount_le op), hn, hj, hlow⟩)
    all_goals
      have hbad : badModeParam v.toNat (paramCount op) = none :=
        badModeParam_eq_none.mpr fun j h1 _ hn => hdigits j h1 hn
    case immediateDest =>
      exact decodeHead_of_immediateDest hs hop hbad hd ((modeAt_eq_immediate le_rfl).mpr hm)
    case legal =>
      exact ⟨⟨op, modeAt v.toNat (paramCount op) 1, modeAt v.toNat (paramCount op) 2, modeAt v.toNat (paramCount op) 3⟩,
        decodeHead_eq_ok.mpr ⟨hs, hop, hbad, by rwa [modeAt_eq_immediate le_rfl], rfl, rfl, rfl⟩, rfl,
        modeAt_eq_specMode, modeAt_eq_specMode, modeAt_eq_specMode⟩

/-! ### The digits that are not examined -/

theorem badModeParam_congr {v v' n : Nat} (h : ∀ j, j ≤ n → modeDigit v j = modeDigit v' j) :
    badModeParam v n = badModeParam v' n := by
  have hcheck : ∀ j, j ≤ n ∧ 2 ≤ modeDigit v j ↔ j ≤ n ∧ 2 ≤ modeDigit v' j :=
    fun j => and_congr_right fun hj => by rw [h j hj]
  simp only [badModeParam_eq, hcheck]

theorem modeAt_congr {v v' n : Nat} (h : ∀ j, j ≤ n → modeDigit v j = modeDigit v' j) : modeAt v n = modeAt v' n := by
  funext j
  exact if_congr (and_congr_right fun hj => by rw [h j hj]) rfl rfl

/-- Settles O6: the decoder's checks depend on the sign and on the examined digits alone. -/
theorem unexaminedDigitsHaveNoEffect : Obligations.UnexaminedDigitsHaveNoEffect := by
  intro v v' h hd hs' hmod
  obtain ⟨-, hop, hbad, hdest, hmodes⟩ := decodeHead_eq_ok.mp hd
  have hdigit : ∀ j, j ≤ paramCount h.op → modeDigit v'.toNat j = modeDigit v.toNat j :=
    fun j hj => (mod_pow_eq_iff_digit _).mp hmod (j + 1) (by omega)
  have hop' : v'.toNat % 100 = v.toNat % 100 :=
    Nat.ModEq.of_dvd (pow_dvd_pow 10 (Nat.le_add_left 2 (paramCount h.op))) hmod
  rw [← badModeParam_congr hdigit] at hbad
  rw [← modeAt_congr hdigit] at hdest hmodes
  exact decodeHead_eq_ok.mpr ⟨hs', hop'.trans hop, hbad, hdest, hmodes⟩

/-! ### The canonical values -/

/-- The instruction values of R61 whose unexamined digits are zero. -/
def canonicalValues : List Nat :=
  [1, 101, 1001, 1101, 2, 102, 1002, 1102, 3, 4, 104, 5, 105, 1005, 1105, 6, 106, 1006, 1106,
    7, 107, 1007, 1107, 8, 108, 1008, 1108, 99]

/-- The well-formed instructions with every choice of modes. Their raw Words are 0: an instruction value does not depend
on them. -/
def canonicalInstrs : List Instr :=
  let modes : List Mode := [.positional, .immediate]
  (allOperations.flatMap fun op => modes.flatMap fun m1 => modes.flatMap fun m2 => modes.map fun m3 =>
    assemble ⟨op, m1, m2, m3⟩ 0 0 0).filter Instr.wellFormed

theorem assemble_mem_canonicalInstrs {h : Head} (hw : (assemble h 0 0 0).wellFormed = true) :
    assemble h 0 0 0 ∈ canonicalInstrs := by
  have hmode : ∀ m : Mode, m ∈ [Mode.positional, Mode.immediate] := by intro m; cases m <;> decide
  have hop : h.op ∈ allOperations := by cases h.op <;> decide
  simp only [canonicalInstrs, List.mem_filter, List.mem_flatMap, List.mem_map]
  exact ⟨⟨h.op, hop, h.m1, hmode _, h.m2, hmode _, h.m3, hmode _, rfl⟩, hw⟩

/-- The canonical values are the encodings of the well-formed instructions. -/
theorem canonicalValues_eq_encodings :
    (∀ i ∈ canonicalInstrs, encodeHead i ∈ canonicalValues) ∧
      ∀ n ∈ canonicalValues, ∃ i ∈ canonicalInstrs, encodeHead i = n := by
  decide

theorem wellFormed_of_mem_canonicalInstrs {i : Instr} (hi : i ∈ canonicalInstrs) : i.wellFormed = true :=
  (List.mem_filter.mp hi).2

/-- Settles O5: a legal value without unexamined digits is the encoding of the instruction it decodes to. -/
theorem canonicalValuesAreTheTwentyEight : Obligations.CanonicalValuesAreTheTwentyEight := by
  intro v
  obtain ⟨hsub, hsup⟩ := canonicalValues_eq_encodings
  constructor
  · rintro ⟨h, hd, hlt⟩
    have henc : encodeHead (assemble h 0 0 0) = v.toNat := by rw [encodeHead_assemble hd, Nat.mod_eq_of_lt hlt]
    rw [← henc]
    exact hsub _ (assemble_mem_canonicalInstrs (wellFormed_assemble hd 0 0 0))
  · intro hv
    obtain ⟨i, hi, henc⟩ := hsup v.toNat hv
    have hdec := decodeHead_encodeHead (wellFormed_of_mem_canonicalInstrs hi)
    obtain ⟨hlt, -⟩ := headDigits i
    rw [henc, BitVec.ofNat_toNat, BitVec.setWidth_eq] at hdec
    exact ⟨i.head, hdec, henc ▸ hlt⟩

end Sys2Proof
end

section
/-! PROOFS. The step and the decoder (spec 40_cycle_and_operands.md rules R65 and R71 to R74, 60_exceptions.md rules
R122 and R126): the step of a machine whose instruction value is rejected, and the machine's fetch against the decoder
on a list of Words. -/

namespace Sys2Proof.Machine

/-! ### A rejected instruction value -/

/-- A step whose instruction value the decoder rejects is the entry of that fault (R73). -/
theorem step_of_reject {s : State} {r : Reject} (hs : s.status = .running) (hb : inBounds s s.ip = true)
    (hd : decodeHead (s.wordAt s.ip) = .error r) : step s = .next (takeFault (rejectError s.ip r) s) := by
  rw [step_of_running hs, fetchDecode_of_reject hb hd]

/-- Settles O10: the first check of the decoder is the sign. -/
theorem negativeInstructionFaults : Obligations.NegativeInstructionFaults :=
  fun _ hs hb hneg => step_of_reject hs hb (decodeHead_of_negative hneg)

theorem specOperation_eq_none {n : Nat} (h : n ∉ [1, 2, 3, 4, 5, 6, 7, 8, 99]) : specOperation n = none := by
  rw [Option.eq_none_iff_forall_ne_some]
  intro op hop
  rw [specOperation_eq_some.mp hop] at h
  cases op <;> exact h (by decide)

/-- Settles O11: the count is a closed fact, and each such opcode is in the second class of the decoder. -/
theorem unknownOpcodeIsFatal : Obligations.UnknownOpcodeIsFatal := by
  refine ⟨by decide, fun s hs hb h0 hop => ⟨?_, step_of_faulted rfl⟩⟩
  obtain ⟨-, hunknown, -⟩ := everyInstructionValueIsClassified (s.wordAt s.ip)
  exact step_of_reject hs hb (hunknown h0 (specOperation_eq_none hop))

theorem exists_specOperation_of_specKnown {opc : Nat} (h : specKnown opc = true) :
    ∃ op, specOperation opc = some op := by
  cases hop : operationOf opc with
  | none => exact absurd h (by rw [specKnown_eq_false hop]; decide)
  | some op => exact ⟨op, (specOperation_eq_operationOf opc).trans hop⟩

/-- Settles O12: the third and fourth classes of the decoder, each with the fault that the step enters. -/
theorem modeErrorsFault : Obligations.ModeErrorsFault := by
  intro s hs hb h0 hknown
  obtain ⟨op, hop⟩ := exists_specOperation_of_specKnown hknown
  obtain ⟨-, -, hclass⟩ := everyInstructionValueIsClassified (s.wordAt s.ip)
  obtain ⟨hdigit, hdest⟩ := hclass op h0 hop
  exact ⟨fun j h1 hn hj hlow => step_of_reject hs hb (hdigit j h1 hn hj hlow),
    fun hgood hd hm => step_of_reject hs hb ((hdest hgood).1 hd hm)⟩

/-- Settles O44: a positional parameter is read through the checked access, an immediate one is not read at all. -/
theorem valResolvesByMode : Obligations.ValResolvesByMode :=
  fun s raw => ⟨rfl, memReadIsChecked s raw .operandRead⟩

/-! ### The machine's fetch is the decoder on the code at `ip` -/

/-- The Words of the Program behind the instruction value: the parameter slots and what follows them. -/
def slotWords (s : State) : List Word := Memory.words s.mem (s.ip.toNat + 1) (s.len - s.ip.toNat - 1)

/-- The code at an `ip` in bounds begins with the instruction value. -/
theorem codeAt_eq_cons {s : State} (hb : inBounds s s.ip = true) : codeAt s = s.wordAt s.ip :: slotWords s := by
  have hlt := toNat_lt_of_inBounds hb
  obtain ⟨n, hn⟩ : ∃ n, s.len - s.ip.toNat = n + 1 := ⟨s.len - s.ip.toNat - 1, by omega⟩
  rw [codeAt, slotWords, hn]
  rfl

section Slots

variable {maxLen : Nat} {s : State} (hmax : Config.LegalMaxLen maxLen) (hlen : s.len ≤ maxLen)
  (hb : inBounds s s.ip = true)

include hmax hlen hb

/-- The address of a slot does not wrap, since `LEN` is legal (R4, R73). -/
theorem slot_toInt {j : Nat} (hj : j ≤ 3) : (s.ip + BitVec.ofNat 64 j).toInt = s.ip.toInt + j := by
  obtain ⟨h0, h1⟩ := inBounds_iff.mp hb
  have hcap := (Config.legalMaxLen_iff maxLen).mp hmax
  rw [Config.maxLenCap] at hcap
  exact toInt_add_ofNat h0 (by omega)

theorem slot_toNat {j : Nat} (hj : j ≤ 3) : (s.ip + BitVec.ofNat 64 j).toNat = s.ip.toNat + j := by
  obtain ⟨h0, -⟩ := inBounds_iff.mp hb
  have hi := slot_toInt hmax hlen hb hj
  rw [toInt_eq_toNat (by omega), toInt_eq_toNat h0] at hi
  exact_mod_cast hi

theorem inBounds_slot {j : Nat} (h1 : 1 ≤ j) (hj : j ≤ 3) :
    inBounds s (s.ip + BitVec.ofNat 64 j) = true ↔ j ≤ (slotWords s).length := by
  obtain ⟨h0, -⟩ := inBounds_iff.mp hb
  rw [inBounds_iff, slot_toInt hmax hlen hb hj, toInt_eq_toNat h0, slotWords, Memory.words_length]
  omega

/-- Slot `j + 1` holds Word `j` behind the instruction value. -/
theorem wordAt_slot {j : Nat} (hj : j < 3) (hl : j < (slotWords s).length) :
    s.wordAt (s.ip + BitVec.ofNat 64 (j + 1)) = (slotWords s).getD j 0 := by
  rw [slotWords, Memory.words_length] at hl
  rw [State.wordAt, slot_toNat hmax hlen hb hj, slotWords, Memory.words_getD _ _ _ _ hl, Nat.add_assoc, Nat.add_comm 1]

/-- A slot that the Program holds is fetched; one that the instruction does not have is the Word 0. -/
theorem fetchSlot_of_present {n j : Nat} (hj : j < 3) (hl : j < n → j < (slotWords s).length) :
    fetchSlot n (j + 1) s = .ok (if j < n then (slotWords s).getD j 0 else 0) := by
  by_cases hn : j < n
  · rw [if_pos hn, fetchSlot_eq_ok]
    exact .inl ⟨hn, (inBounds_slot hmax hlen hb (by omega) hj).mpr (hl hn), wordAt_slot hmax hlen hb hj (hl hn)⟩
  · rw [if_neg hn, fetchSlot_eq_ok]
    exact .inr ⟨by omega, rfl⟩

theorem fetchSlot_of_missing {n j : Nat} (hj : j < 3) (hn : j < n) (hl : (slotWords s).length ≤ j) :
    fetchSlot n (j + 1) s = .error (.addressingError .paramFetch (s.ip + BitVec.ofNat 64 (j + 1))) := by
  have hout : ¬ inBounds s (s.ip + BitVec.ofNat 64 (j + 1)) = true := by
    rw [inBounds_slot hmax hlen hb (by omega) hj]
    omega
  rw [fetchSlot, if_pos (Nat.succ_le_of_lt hn)]
  exact memRead_eq_error.mpr ⟨eq_false_of_ne_true hout, rfl⟩

/-- With all its slots in the Program the fetched instruction is the one that the decoder assembles. -/
theorem fetchDecode_of_slots {h : Head} (hd : decodeHead (s.wordAt s.ip) = .ok h)
    (hl : paramCount h.op ≤ (slotWords s).length) :
    fetchDecode s = .ok (assemble h ((slotWords s).getD 0 0) ((slotWords s).getD 1 0) ((slotWords s).getD 2 0)) := by
  have hslot : ∀ {j}, j < 3 → fetchSlot (paramCount h.op) (j + 1) s =
      .ok (if j < paramCount h.op then (slotWords s).getD j 0 else 0) :=
    fun hj => fetchSlot_of_present hmax hlen hb hj (by omega)
  rw [fetchDecode_of_head hb hd, hslot (j := 0) (by omega), hslot (j := 1) (by omega), hslot (j := 2) (by omega)]
  refine congrArg Except.ok (assemble_congr ?_ ?_ ?_) <;> exact fun hn => ⟨rfl, if_pos hn⟩

/-- With a slot missing the fetch faults on the first one, which is the one behind the last Word of the Program. -/
theorem fetchDecode_of_missing_slot {h : Head} (hd : decodeHead (s.wordAt s.ip) = .ok h)
    (hl : (slotWords s).length < paramCount h.op) :
    fetchDecode s =
      .error (.addressingError .paramFetch (s.ip + BitVec.ofNat 64 ((slotWords s).length + 1))) := by
  have hlt : (slotWords s).length < 3 := hl.trans_le (paramCount_le h.op)
  have hslot : ∀ {j}, j < (slotWords s).length → fetchSlot (paramCount h.op) (j + 1) s =
      .ok (if j < paramCount h.op then (slotWords s).getD j 0 else 0) :=
    fun hj => fetchSlot_of_present hmax hlen hb (hj.trans hlt) fun _ => hj
  have hmissing := fetchSlot_of_missing hmax hlen hb hlt hl le_rfl
  rw [fetchDecode_of_head hb hd]
  interval_cases (slotWords s).length
  · rw [hmissing]
    rfl
  · rw [hslot (j := 0) (by omega), hmissing]
    rfl
  · rw [hslot (j := 0) (by omega), hslot (j := 1) (by omega), hmissing]
    rfl

theorem fetchDecode_of_decode_ok {i : Instr} {rest : List Word} (hdec : decode (codeAt s) = .ok (i, rest)) :
    fetchDecode s = .ok i := by
  rw [codeAt_eq_cons hb, decode_cons_eq_ok] at hdec
  obtain ⟨h, hd, hl, rfl, -⟩ := hdec
  exact fetchDecode_of_slots hmax hlen hb hd hl

theorem fetchDecode_of_decode_error {r : Reject} (hdec : decode (codeAt s) = .error r) :
    fetchDecode s = .error (rejectError s.ip r) := by
  rw [codeAt_eq_cons hb] at hdec
  cases hd : decodeHead (s.wordAt s.ip) with
  | error r' =>
    rw [decode_cons_of_reject hd] at hdec
    obtain rfl := Except.error.inj hdec
    exact fetchDecode_of_reject hb hd
  | ok h =>
    rw [decode_cons_of_head hd] at hdec
    split at hdec
    next hl =>
      obtain rfl := Except.error.inj hdec
      exact fetchDecode_of_missing_slot hmax hlen hb hd hl
    next => cases hdec

end Slots

/-- Settles O8: the machine's fetch has the outcome of the decoder on the code at `ip`, and the step goes on from it. -/
theorem stepRunsTheDecodedInstruction : Obligations.StepRunsTheDecodedInstruction := by
  intro maxLen s hmax hlen hs hb
  constructor
  · intro i rest hdec
    rw [step_of_running hs, fetchDecode_of_decode_ok hmax hlen hb hdec]
  · intro r hdec
    rw [step_of_running hs, fetchDecode_of_decode_error hmax hlen hb hdec]

end Sys2Proof.Machine
end

section
/-! PROOFS. The faults of the cycle (spec 40_cycle_and_operands.md rules R72 to R76, R79, 42_io.md rule R95,
60_exceptions.md rules R123 and R129): the fetch of the instruction value and of the slots, the operands, the
destination, and that a step takes the first of them. -/

namespace Sys2Proof.Machine

/-! ### The entries of an AddressingError, written out (R123) -/

theorem takeFault_fetch (a : Word) (s : State) : takeFault (.addressingError .fetch a) s = faulted s 2 0 a := rfl

theorem takeFault_paramFetch (a : Word) (s : State) :
    takeFault (.addressingError .paramFetch a) s = faulted s 2 1 a := rfl

theorem takeFault_operandRead (a : Word) (s : State) :
    takeFault (.addressingError .operandRead a) s = faulted s 2 2 a := rfl

theorem takeFault_destWrite (a : Word) (s : State) :
    takeFault (.addressingError .destWrite a) s = faulted s 2 3 a := rfl

/-! ### The fetch -/

/-- Settles O9: the bounds check of `ip` is phase 1. -/
theorem fetchOutsideTheProgramFaults : Obligations.FetchOutsideTheProgramFaults := by
  intro s hs hout
  rw [← inBounds_iff, Bool.not_eq_true] at hout
  rw [step_of_ip_out_of_bounds hs hout, takeFault_fetch]

/-- The first address behind the Words of the slots is the end of the Program. -/
theorem ip_add_slotWords_length_succ {s : State} (hb : inBounds s s.ip = true) :
    s.ip + BitVec.ofNat 64 ((slotWords s).length + 1) = BitVec.ofNat 64 s.len := by
  have hlt := toNat_lt_of_inBounds hb
  have hlen : s.len = s.ip.toNat + ((slotWords s).length + 1) := by
    rw [slotWords, Memory.words_length]
    omega
  rw [hlen, BitVec.ofNat_add (x := s.ip.toNat), BitVec.ofNat_toNat, BitVec.setWidth_eq]

/-- Settles O13: the first missing slot is the one at `LEN`. -/
theorem missingParameterSlotFaults : Obligations.MissingParameterSlotFaults := by
  intro maxLen s h hmax hlen hs hb hd hshort
  have hlt := toNat_lt_of_inBounds hb
  have hmissing : (slotWords s).length < paramCount h.op := by
    rw [slotWords, Memory.words_length]
    omega
  rw [step_of_running hs, fetchDecode_of_missing_slot hmax hlen hb hd hmissing, ip_add_slotWords_length_succ hb,
    ← takeFault_paramFetch]

/-! ### The first fault of the list -/

theorem FaultsBy.eq_takeFault {s : State} {e : FatalError} {o : Host.Outcome State Fault Refusal}
    (h : FaultsBy s (some e) o) : o = .next (takeFault e s) := by
  cases h
  rfl

theorem FaultsBy.exists_not_faulted {s : State} {o : Host.Outcome State Fault Refusal} (h : FaultsBy s none o) :
    ∃ t, o = .next t ∧ t.status ≠ .faulted := by
  cases h with
  | done t ht => exact ⟨t, rfl, ht⟩

theorem step_of_firstFault_eq_some {s : State} {e : FatalError} (hs : s.status = .running)
    (he : firstFault s = some e) : step s = .next (takeFault e s) := by
  have h := step_faultsBy hs
  rw [he] at h
  exact h.eq_takeFault

/-- Where no condition of R129 holds, phases 1 and 2 deliver an instruction. -/
theorem exists_fetchDecode_eq_ok {s : State} (hn : firstFault s = none) : ∃ i, fetchDecode s = .ok i := by
  rw [firstFault_eq_firstOf, faultPriority_eq, ← List.append_assoc, firstOf_append, ← raised_fetchDecode,
    Option.or_eq_none_iff] at hn
  cases hf : fetchDecode s with
  | ok i => exact ⟨i, rfl⟩
  | error e => simp [hf] at hn

/-- Where no condition of R129 holds, the step executes the fetched instruction without a fault. -/
theorem step_of_firstFault_eq_none {s : State} (hs : s.status = .running) (hn : firstFault s = none) :
    ∃ i t, fetchDecode s = .ok i ∧ exec i s = .next t ∧ step s = .next t ∧ t.status ≠ .faulted := by
  obtain ⟨i, hf⟩ := exists_fetchDecode_eq_ok hn
  have h := step_faultsBy hs
  rw [hn] at h
  obtain ⟨t, hstep, ht⟩ := h.exists_not_faulted
  have hx : step s = exec i s := by rw [step_of_running hs, hf]
  exact ⟨i, t, hf, hx.symm.trans hstep, hstep, ht⟩

/-- Settles O14: the two outcomes of the list, the opcode from what a fetched instruction says of the Words at `ip`. -/
theorem stepTakesTheFirstFaultOfThePriorityList : Obligations.StepTakesTheFirstFaultOfThePriorityList := by
  intro s hs
  refine ⟨fun e he => step_of_firstFault_eq_some hs he, fun hn => ?_⟩
  obtain ⟨i, t, hf, hx, hstep, ht⟩ := step_of_firstFault_eq_none hs hn
  exact ⟨i, t, specOperation_eq_some.mpr (fetched_of_fetchDecode hf).opcode, hf, hx, hstep, ht⟩

/-! ### Operands -/

/-- The instructions with two read parameters begin by resolving both, parameter 1 first, and whatever they do with the
values (R76). -/
theorem exec_eq_resolve_operands {s : State} {p1 p2 d : Param} {i : Instr}
    (hi : i ∈ [Instr.add p1 p2 d, .multiply p1 p2 d, .lessThan p1 p2 d, .equals p1 p2 d, .jumpIfTrue p1 p2,
      .jumpIfFalse p1 p2]) :
    ∃ k : Word → Word → Except FatalError State,
      exec i s = complete s (val p1 s >>= fun a => val p2 s >>= fun b => k a b) := by
  simp only [List.mem_cons, List.not_mem_nil, or_false] at hi
  obtain rfl | rfl | rfl | rfl | rfl | rfl := hi <;> exact ⟨_, rfl⟩

/-- Settles O35: an operand that does not resolve ends the instruction with the fault of its read. -/
theorem unreadableOperandFaults : Obligations.UnreadableOperandFaults := by
  intro s p1 p2 d i hi
  obtain ⟨k, hk⟩ := exec_eq_resolve_operands (s := s) hi
  refine ⟨fun h1 => ?first, fun h1 h2 => ?second, fun h1 => ?output⟩
  case first =>
    rw [hk, val_eq_error.mpr ⟨h1, rfl⟩]
    rfl
  case second =>
    rw [hk, val_eq_ok.mpr ⟨h1, rfl⟩, val_eq_error.mpr ⟨h2, rfl⟩]
    rfl
  case output =>
    obtain ⟨-, he⟩ | ⟨hr, -⟩ := execWriteOutput_cases p1 s
    · exact he
    · exact absurd hr h1

/-! ### The destination -/

theorem exec_lessThan (p1 p2 d : Param) (s : State) :
    exec (.lessThan p1 p2 d) s = complete s (binaryStore (fun a b => .ok (aluWord .lt a b)) p1 p2 d s) := rfl

theorem exec_equals (p1 p2 d : Param) (s : State) :
    exec (.equals p1 p2 d) s = complete s (binaryStore (fun a b => .ok (aluWord .eq a b)) p1 p2 d s) := rfl

/-- With a result in hand, format F3RRW faults on a destination out of bounds (R79). -/
theorem complete_binaryStore_of_dest_out_of_bounds {f : Word → Word → Except FatalError Word} {p1 p2 d : Param}
    {s : State} {r : Word} (h1 : Readable s p1) (h2 : Readable s p2)
    (hf : f (operandWord s p1) (operandWord s p2) = .ok r) (hd : inBounds s d.raw = false) :
    complete s (binaryStore f p1 p2 d s) = .next (faulted s 2 3 d.raw) := by
  rw [binaryStore_of_readable f d h1 h2, hf, ← takeFault_destWrite]
  simp only [bind, Except.bind, memWrite_eq_error.mpr ⟨hd, rfl⟩, Except.map, complete_error]

/-- Settles O38: the checked store is the last check of each of the five instructions. -/
theorem destinationOutOfBoundsFaults : Obligations.DestinationOutOfBoundsFaults := by
  refine ⟨fun s p1 p2 d h1 h2 hd => ⟨fun hr => ?add, fun hr => ?multiply, ?lessThan, ?equals⟩,
    fun s d hq hd => ?readInput⟩
  case add =>
    rw [exec_add]
    exact complete_binaryStore_of_dest_out_of_bounds h1 h2 (aluChecked_of_inWordRange .add hr) hd
  case multiply =>
    rw [exec_multiply]
    exact complete_binaryStore_of_dest_out_of_bounds h1 h2 (aluChecked_of_inWordRange .mul hr) hd
  case lessThan =>
    rw [exec_lessThan]
    exact complete_binaryStore_of_dest_out_of_bounds h1 h2 rfl hd
  case equals =>
    rw [exec_equals]
    exact complete_binaryStore_of_dest_out_of_bounds h1 h2 rfl hd
  case readInput =>
    obtain ⟨hnil, -⟩ | ⟨-, -, -, -, he⟩ | ⟨-, -, -, hb, -⟩ := execReadInput_cases d s
    · exact absurd hnil hq
    · exact he
    · simp [hb] at hd

end Sys2Proof.Machine
end

section
/-! PROOFS. What an instruction leaves unchanged, and what a step depends on (spec 40_cycle_and_operands.md rules R70,
R77, R79, R84, 60_exceptions.md rule R120). -/

namespace Sys2Proof.Machine

/-! ### The fault registers as one value -/

/-- The four fault registers (R16), whatever `status` is; `readFault` shows them to the host in FAULTED. -/
def State.record (s : State) : FaultRecord := ⟨s.cause, s.fkind, s.fip, s.finfo⟩

theorem State.record_eq_iff {s t : State} :
    t.record = s.record ↔ t.cause = s.cause ∧ t.fkind = s.fkind ∧ t.fip = s.fip ∧ t.finfo = s.finfo := by
  simp [State.record]

/-! ### The frame of an instruction, part by part -/

theorem Effect.mem_eq {i : Instr} {s t : State} (h : Effect i s t) (hd : i.dest? = none) : t.mem = s.mem := by
  cases h with
  | store d r hd' hi hb => simp [hd] at hd'
  | input d x rest hi hq hb => simp [hi, Instr.dest?] at hd
  | fault | output | jump | halt => rfl

/-- A store replaces the Word at the destination address and no other (R32, R79). -/
theorem Effect.sameMemoryBut {i : Instr} {s t : State} {d : Param} (h : Effect i s t) (hd : i.dest? = some d)
    (hwf : Memory.wf s.mem = true) : SameMemoryBut (destAddr d).toNat s t := by
  cases h with
  | store d' r hd' hi hb =>
    obtain rfl := Option.some.inj (hd'.symm.trans hd)
    exact fun b hne => Memory.read_write_other hwf r hne
  | input d' x rest hi hq hb =>
    subst hi
    obtain rfl := Option.some.inj hd
    exact fun b hne => Memory.read_write_other hwf x hne
  | fault | output | jump | halt => exact fun _ _ => rfl

theorem Effect.inq_eq {i : Instr} {s t : State} (h : Effect i s t) (hi : i.operation ≠ .readInput) :
    t.inq = s.inq := by
  cases h with
  | input d x rest hi' hq hb => exact absurd (congrArg Instr.operation hi') hi
  | fault | store | output | jump | halt => rfl

theorem Effect.outq_eq {i : Instr} {s t : State} (h : Effect i s t) (hi : i.operation ≠ .writeOutput) :
    t.outq = s.outq := by
  cases h with
  | output p hi' hr => exact absurd (congrArg Instr.operation hi') hi
  | fault | store | input | jump | halt => rfl

theorem Effect.record_eq {i : Instr} {s t : State} (h : Effect i s t) (ht : t.status ≠ .faulted) :
    t.record = s.record := by
  cases h with
  | fault e => exact absurd rfl ht
  | store | input | output | jump | halt => rfl

theorem Effect.status_eq {i : Instr} {s t : State} (h : Effect i s t) (ht : t.status ≠ .faulted)
    (hi : i.operation ≠ .halt) : t.status = s.status := by
  cases h with
  | fault e => exact absurd rfl ht
  | halt hi' => exact absurd (congrArg Instr.operation hi') hi
  | store | input | output | jump => rfl

theorem Effect.sameStatus {i : Instr} {s t : State} (h : Effect i s t) (ht : t.status ≠ .faulted)
    (hi : i.operation ≠ .halt) : SameStatus s t := by
  obtain ⟨hc, hk, hp, hf⟩ := State.record_eq_iff.mp (h.record_eq ht)
  exact ⟨h.status_eq ht hi, hc, hk, hp, hf⟩

/-- An instruction reaches FAULTED by the entry of a fault alone (R120, R130). -/
theorem Effect.eq_takeFault {i : Instr} {s t : State} (h : Effect i s t) (hs : s.status ≠ .faulted)
    (ht : t.status = .faulted) : ∃ e, t = takeFault e s := by
  cases h with
  | fault e => exact ⟨e, rfl⟩
  | store | input | output | jump => exact absurd ht hs
  | halt => cases ht

/-- Settles O39: the frame of a store, its operation and destination read off the instruction. -/
theorem storingInstructionsFrame : Obligations.StoringInstructionsFrame := by
  intro s t p1 p2 d i hi hwf hs hx
  have he := exec_effect hx
  obtain ⟨hd, hin, hout, hhalt⟩ : i.dest? = some d ∧ i.operation ≠ .readInput ∧ i.operation ≠ .writeOutput ∧
      i.operation ≠ .halt := by
    simp only [List.mem_cons, List.not_mem_nil, or_false] at hi
    obtain rfl | rfl | rfl | rfl := hi <;> exact ⟨rfl, nofun, nofun, nofun⟩
  refine ⟨he.extends.len, he.inq_eq hin, he.outq_eq hout, he.sameMemoryBut hd hwf,
    fun ht => he.sameStatus ht hhalt, fun ht => ?_⟩
  obtain ⟨e, rfl⟩ := he.eq_takeFault hs ht
  exact ⟨fun _ => rfl, rfl⟩

/-- Settles O41: none of the four has a destination or reads input. -/
theorem nonStoringInstructionsFrame : Obligations.NonStoringInstructionsFrame := by
  intro s t p1 p2 i hi hs hx
  have he := exec_effect hx
  obtain ⟨hd, hin⟩ : i.dest? = none ∧ i.operation ≠ .readInput := by
    simp only [List.mem_cons, List.not_mem_nil, or_false] at hi
    obtain rfl | rfl | rfl | rfl := hi <;> exact ⟨rfl, nofun⟩
  refine ⟨fun b => by rw [he.mem_eq hd], he.extends.len, he.inq_eq hin, he.outq_eq, fun ht => ?done, fun ht => ?fault⟩
  case done =>
    obtain ⟨hc, hk, hp, hf⟩ := State.record_eq_iff.mp (he.record_eq ht)
    exact ⟨hc, hk, hp, hf, he.status_eq ht⟩
  case fault =>
    obtain ⟨e, rfl⟩ := he.eq_takeFault hs ht
    exact ⟨rfl, rfl⟩

/-! ### Completions -/

theorem eq_ok_of_complete {x : Except FatalError State} {s t : State} (h : complete s x = .next t)
    (ht : t.status ≠ .faulted) : x = .ok t := by
  obtain hx | ⟨e, -, rfl⟩ := complete_eq_next.mp h
  · exact hx
  · exact absurd rfl ht

theorem exists_stored_of_binaryStore {f : Word → Word → Except FatalError Word} {p1 p2 d : Param} {s t : State}
    (h : binaryStore f p1 p2 d s = .ok t) :
    Readable s p1 ∧ Readable s p2 ∧ inBounds s d.raw = true ∧
      ∃ w, f (operandWord s p1) (operandWord s p2) = .ok w ∧ t = stored s d w := by
  obtain ⟨-, he⟩ | ⟨-, -, he⟩ | ⟨-, -, e, -, he⟩ | ⟨-, -, w, -, -, he⟩ | ⟨h1, h2, w, hf, hb, he⟩ :=
    binaryStore_cases f p1 p2 d s <;> rw [he] at h
  · cases h
  · cases h
  · cases h
  · cases h
  · exact ⟨h1, h2, hb, w, hf, (Except.ok.inj h).symm⟩

theorem conditionalJump_of_readable (taken : Word → Bool) {p1 p2 : Param} {s : State} (h1 : Readable s p1)
    (h2 : Readable s p2) : conditionalJump taken p1 p2 s =
      .ok (s.setIp (if taken (operandWord s p1) = true then operandWord s p2 else s.ip + 3)) := by
  obtain ⟨h, -⟩ | ⟨-, h, -⟩ | ⟨-, -, he⟩ := conditionalJump_cases taken p1 p2 s
  · exact absurd h1 h
  · exact absurd h2 h
  · exact he

theorem readable_of_conditionalJump {taken : Word → Bool} {p1 p2 : Param} {s t : State}
    (h : conditionalJump taken p1 p2 s = .ok t) : Readable s p1 ∧ Readable s p2 := by
  obtain ⟨-, he⟩ | ⟨-, -, he⟩ | ⟨h1, h2, -⟩ := conditionalJump_cases taken p1 p2 s
  · simp [he] at h
  · simp [he] at h
  · exact ⟨h1, h2⟩

theorem execReadInput_of_input {d : Param} {s : State} {x : Word} {rest : List Word} (hq : s.inq = x :: rest)
    (hb : inBounds s d.raw = true) : execReadInput d s =
      .next { s with mem := Memory.write s.mem d.raw.toNat x, inq := rest, ip := s.ip + 2 } := by
  obtain ⟨hn, -⟩ | ⟨-, -, -, hb', -⟩ | ⟨y, tail, hq', -, he⟩ := execReadInput_cases d s
  · simp [hn] at hq
  · simp [hb] at hb'
  · obtain ⟨rfl, rfl⟩ := List.cons.inj (hq'.symm.trans hq)
    exact he

theorem execWriteOutput_of_readable {p : Param} {s : State} (h : Readable s p) :
    execWriteOutput p s = .next { s with outq := s.outq ++ [operandWord s p], ip := s.ip + 2 } := by
  obtain ⟨hn, -⟩ | ⟨-, he⟩ := execWriteOutput_cases p s
  · exact absurd h hn
  · exact he

/-! ### A step does not read the fault registers -/

/-- Replace the fault registers. -/
def State.setRecord (r : FaultRecord) (s : State) : State :=
  { s with cause := r.cause, fkind := r.fkind, fip := r.fip, finfo := r.finfo }

/-- Two states that agree on the parts a step reads and on `status` differ in the fault registers alone (R10, R70). -/
theorem SameInputs.eq_setRecord {s s' : State} (h : SameInputs s s') (hst : s.status = s'.status) :
    s' = s.setRecord s'.record := by
  obtain ⟨hmem, hlen, hip, hinq, houtq⟩ := h
  simp [State.setRecord, State.record, hmem, hlen, hip, hinq, houtq, hst]

theorem sameInputs_setRecord (r : FaultRecord) (s : State) : SameInputs s (s.setRecord r) := ⟨rfl, rfl, rfl, rfl, rfl⟩

theorem takeFault_setRecord (e : FatalError) (r : FaultRecord) (s : State) :
    takeFault e (s.setRecord r) = takeFault e s := rfl

theorem firstFault_setRecord (r : FaultRecord) (s : State) : firstFault (s.setRecord r) = firstFault s := rfl

theorem fetchDecode_setRecord (r : FaultRecord) (s : State) : fetchDecode (s.setRecord r) = fetchDecode s := rfl

theorem binaryStore_setRecord {f : Word → Word → Except FatalError Word} {p1 p2 d : Param} {s t : State}
    (r : FaultRecord) (h : binaryStore f p1 p2 d s = .ok t) :
    binaryStore f p1 p2 d (s.setRecord r) = .ok (t.setRecord r) := by
  obtain ⟨h1, h2, hb, w, hf, rfl⟩ := exists_stored_of_binaryStore h
  exact binaryStore_eq_stored (s := s.setRecord r) h1 h2 hf hb

theorem conditionalJump_setRecord {taken : Word → Bool} {p1 p2 : Param} {s t : State} (r : FaultRecord)
    (h : conditionalJump taken p1 p2 s = .ok t) :
    conditionalJump taken p1 p2 (s.setRecord r) = .ok (t.setRecord r) := by
  obtain ⟨h1, h2⟩ := readable_of_conditionalJump h
  rw [conditionalJump_of_readable taken h1 h2] at h
  obtain rfl := Except.ok.inj h
  exact conditionalJump_of_readable taken (s := s.setRecord r) h1 h2

theorem execReadInput_setRecord {d : Param} {s t : State} (r : FaultRecord) (h : execReadInput d s = .next t)
    (ht : t.status ≠ .faulted) : execReadInput d (s.setRecord r) = .next (t.setRecord r) := by
  obtain ⟨-, he⟩ | ⟨-, -, -, -, he⟩ | ⟨x, rest, hq, hb, he⟩ := execReadInput_cases d s <;> rw [he] at h <;>
    obtain rfl := Host.Outcome.next.inj h
  · exact absurd rfl ht
  · exact absurd rfl ht
  · exact execReadInput_of_input (s := s.setRecord r) hq hb

theorem execWriteOutput_setRecord {p : Param} {s t : State} (r : FaultRecord) (h : execWriteOutput p s = .next t)
    (ht : t.status ≠ .faulted) : execWriteOutput p (s.setRecord r) = .next (t.setRecord r) := by
  obtain ⟨-, he⟩ | ⟨hr, he⟩ := execWriteOutput_cases p s <;> rw [he] at h <;>
    obtain rfl := Host.Outcome.next.inj h
  · exact absurd rfl ht
  · exact execWriteOutput_of_readable (s := s.setRecord r) hr

/-- An instruction that does not fault does the same whatever the fault registers hold, and keeps them (R70, R77). -/
theorem exec_setRecord {i : Instr} {s t : State} (r : FaultRecord) (h : exec i s = .next t)
    (ht : t.status ≠ .faulted) : exec i (s.setRecord r) = .next (t.setRecord r) := by
  cases i with
  | add | multiply | lessThan | equals =>
    exact congrArg (complete _) (binaryStore_setRecord r (eq_ok_of_complete h ht))
  | jumpIfTrue | jumpIfFalse =>
    exact congrArg (complete _) (conditionalJump_setRecord r (eq_ok_of_complete h ht))
  | readInput d => exact execReadInput_setRecord r h ht
  | writeOutput p => exact execWriteOutput_setRecord r h ht
  | halt =>
    obtain rfl := Host.Outcome.next.inj h
    rfl

theorem step_of_idle {s : State} (h : s.status = .idle) : step s = .fault .noStepIdle := by
  simp only [step, h]

/-- The two outcomes of a running machine's step (R71): one fault, or one instruction without a fault. -/
theorem step_outcome {s : State} (hs : s.status = .running) :
    (∃ e, firstFault s = some e ∧ step s = .next (takeFault e s)) ∨
    (∃ i t, fetchDecode s = .ok i ∧ exec i s = .next t ∧ step s = .next t ∧ t.status ≠ .faulted) := by
  cases hf : firstFault s with
  | some e => exact .inl ⟨e, rfl, step_of_firstFault_eq_some hs hf⟩
  | none => exact .inr (step_of_firstFault_eq_none hs hf)

/-- Settles O15: of the state's ten fields a running machine's step reads five, so the other machine is this one with
other fault registers. -/
theorem stepOnlyWhileRunningAndByFiveParts : Obligations.StepOnlyWhileRunningAndByFiveParts := by
  refine ⟨step_of_idle rfl, fun _ => step_of_idle, fun _ => step_of_halted, fun _ => step_of_faulted,
    fun s hs => ?oneOutcome, fun s s' hs hs' h => ?sameInputs⟩
  case oneOutcome =>
    obtain ⟨e, -, hstep⟩ | ⟨i, t, hf, hx, hstep, ht⟩ := step_outcome hs
    · exact ⟨_, hstep, .inl ⟨e, rfl⟩⟩
    · exact ⟨t, hstep, .inr ⟨ht, i, hf, hx⟩⟩
  case sameInputs =>
    have hrec := h.eq_setRecord (hs.trans hs'.symm)
    generalize s'.record = r at hrec
    subst hrec
    obtain ⟨e, he, hstep⟩ | ⟨i, t, hf, hx, hstep, ht⟩ := step_outcome hs
    · have hstep' := step_of_firstFault_eq_some hs' ((firstFault_setRecord r s).trans he)
      exact ⟨_, _, hstep, hstep', ⟨rfl, rfl, rfl, rfl, rfl⟩, rfl, fun _ => ⟨rfl, rfl, rfl, rfl⟩,
        fun hn => absurd rfl hn⟩
    · have hstep' : step (s.setRecord r) = .next (t.setRecord r) := by
        rw [step_of_running hs', fetchDecode_setRecord, hf]
        exact exec_setRecord r hx ht
      exact ⟨t, _, hstep, hstep', sameInputs_setRecord r t, rfl, fun hc => absurd hc ht,
        fun _ => State.record_eq_iff.mp ((exec_effect hx).record_eq ht)⟩

/-! ### A jump to itself -/

theorem exec_jumpIfTrue (p1 p2 : Param) (s : State) :
    exec (.jumpIfTrue p1 p2) s = complete s (conditionalJump nonZero p1 p2 s) := rfl

/-- Where its operands are readable, jump-if-true writes `ip` alone (R100). -/
theorem exec_jumpIfTrue_of_readable {p1 p2 : Param} {s : State} (h1 : Readable s p1) (h2 : Readable s p2) :
    exec (.jumpIfTrue p1 p2) s =
      .next (s.setIp (if operandWord s p1 ≠ 0 then operandWord s p2 else s.ip + 3)) := by
  rw [exec_jumpIfTrue, conditionalJump_of_readable nonZero h1 h2, complete_ok]
  simp only [nonZero_eq, decide_eq_true_eq]

/-- Settles O25: the step of such a jump leads from the state to itself. -/
theorem selfJumpRunsForEver : Obligations.SelfJumpRunsForEver := by
  intro s c hs hc hf k
  have hstep : step s = .next s := by
    rw [step_of_running hs, hf]
    refine (exec_jumpIfTrue_of_readable (.inl rfl) (.inl rfl)).trans ?_
    rw [if_pos (show operandWord s ⟨.immediate, c⟩ ≠ 0 from hc)]
    rfl
  induction k with
  | zero => exact runsTo_zero.mpr rfl
  | succ k ih => exact runsTo_succ.mpr ⟨s, hstep, ih⟩

end Sys2Proof.Machine
end

section
/-! PROOFS. read-input and write-output (spec 42_io.md rules R95 and R96, 60_exceptions.md rules R120, R124 and R129):
their completions, the frame of read-input, and InputExhaustion. -/

namespace Sys2Proof.Machine

/-! ### Completions -/

/-- Settles O30: with input and a destination in bounds neither check of R95 fails. -/
theorem readInputStoresTheHead : Obligations.ReadInputStoresTheHead :=
  fun _ _ _ _ hq hb => execReadInput_of_input hq hb

/-- Settles O31: a readable operand resolves, and appending has no check (R96). -/
theorem writeOutputAppends : Obligations.WriteOutputAppends :=
  fun _ _ hr => execWriteOutput_of_readable hr

/-! ### The frame of read-input -/

/-- Without a fault read-input consumes exactly the head of the input (R95). -/
theorem Effect.exists_inq_eq_cons {i : Instr} {s t : State} (h : Effect i s t) (hi : i.operation = .readInput)
    (ht : t.status ≠ .faulted) : ∃ x, s.inq = x :: t.inq := by
  cases h with
  | fault e => exact absurd rfl ht
  | input d x rest hi' hq hb => exact ⟨x, hq⟩
  | store d r hd hi' hb => exact absurd hi hi'
  | output p hi' hr => cases hi' ▸ hi
  | jump w hi' => simp [hi] at hi'
  | halt hi' => cases hi' ▸ hi

/-- Settles O40: the frame of an effect, part by part; FAULTED is reached by the entry of a fault alone. -/
theorem readInputFrame : Obligations.ReadInputFrame := by
  intro s t d hwf hs hx
  have he := exec_effect hx
  refine ⟨he.extends.len, he.outq_eq nofun, he.sameMemoryBut rfl hwf, fun ht => ?done, fun ht => ?fault⟩
  case done => exact ⟨he.sameStatus ht nofun, he.exists_inq_eq_cons rfl ht⟩
  case fault =>
    obtain ⟨e, rfl⟩ := he.eq_takeFault hs ht
    exact ⟨fun _ => rfl, rfl, rfl⟩

/-! ### InputExhaustion -/

theorem takeFault_inputExhaustion (s : State) : takeFault .inputExhaustion s = faulted s 3 0 0 := rfl

theorem execReadInput_of_no_input (d : Param) {s : State} (hq : s.inq = []) :
    execReadInput d s = .next (faulted s 3 0 0) := by
  obtain ⟨-, he⟩ | ⟨x, rest, hq', -⟩ | ⟨x, rest, hq', -⟩ := execReadInput_cases d s
  · rw [he, takeFault_inputExhaustion]
  · simp [hq] at hq'
  · simp [hq] at hq'

/-- Cause 3 is InputExhaustion's alone (R121). -/
theorem causeCode_eq_three {e : FatalError} : causeCode e = 3 ↔ e = .inputExhaustion := by
  cases e <;> simp [causeCode]

/-- The fault that a list reports stands in it beside a condition that holds. -/
theorem mem_of_firstOf_eq_some {cs : List (Bool × FatalError)} {e : FatalError} (h : firstOf cs = some e) :
    (true, e) ∈ cs := by
  obtain ⟨⟨b, e'⟩, hfind, rfl⟩ := Option.map_eq_some_iff.mp h
  obtain rfl : b = true := List.find?_some hfind
  exact List.mem_of_find?_eq_some hfind

/-- No condition of R129 on the instruction value or the slots reports InputExhaustion. -/
theorem fetchDecode_ne_inputExhaustion (s : State) : fetchDecode s ≠ .error .inputExhaustion := by
  intro hf
  have h := raised_fetchDecode s
  rw [hf, raised_error] at h
  simpa [valueFaults, slotFaults, faultPriority] using mem_of_firstOf_eq_some h.symm

/-- Among the conditions of R129 on an instruction's effect, InputExhaustion is read-input's, on an empty input. -/
theorem inputExhaustion_mem_instrFaults {s : State} {i : Instr} (h : (true, .inputExhaustion) ∈ instrFaults s i) :
    (∃ d, i = .readInput d) ∧ s.inq = [] := by
  cases i with
  | readInput d => exact ⟨⟨d, rfl⟩, by simpa [instrFaults, destFaults] using h⟩
  | add | multiply | writeOutput | jumpIfTrue | jumpIfFalse | lessThan | equals | halt =>
    simp [instrFaults, operandFaults, destFaults] at h

/-- A FAULTED outcome is the entry of the fault that the conditions report. -/
theorem FaultsBy.exists_of_faulted {s t : State} {f : Option FatalError} (h : FaultsBy s f (.next t))
    (ht : t.status = .faulted) : ∃ e, f = some e ∧ t = takeFault e s := by
  cases h with
  | fault e => exact ⟨e, rfl, rfl⟩
  | done _ hn => exact absurd ht hn

/-- Settles O37: the fetch never raises InputExhaustion, and of the effects' conditions only read-input's does. -/
theorem inputExhaustionFaults : Obligations.InputExhaustionFaults := by
  refine ⟨fun s d hq => execReadInput_of_no_input d hq, fun s t h ht hc => ?_⟩
  obtain ⟨hs, ⟨e, hf, rfl⟩ | ⟨i, hf, hx⟩⟩ := step_cases h
  · obtain rfl := causeCode_eq_three.mp hc
    exact absurd hf (fetchDecode_ne_inputExhaustion s)
  · have hby := exec_faultsBy i (s := s) (by simp [hs])
    rw [hx] at hby
    obtain ⟨e, he, rfl⟩ := hby.exists_of_faulted ht
    obtain rfl := causeCode_eq_three.mp hc
    obtain ⟨⟨d, rfl⟩, hq⟩ := inputExhaustion_mem_instrFaults (mem_of_firstOf_eq_some he)
    exact ⟨⟨d, hf⟩, hq⟩

end Sys2Proof.Machine
end

section
/-! PROOFS. jump-if-true and jump-if-false (spec 43_jumps.md rules R100 and R101): their completions. -/

namespace Sys2Proof.Machine

theorem exec_jumpIfFalse (p1 p2 : Param) (s : State) :
    exec (.jumpIfFalse p1 p2) s = complete s (conditionalJump (fun c => !nonZero c) p1 p2 s) := rfl

/-- Where its operands are readable, jump-if-false writes `ip` alone (R101). -/
theorem exec_jumpIfFalse_of_readable {p1 p2 : Param} {s : State} (h1 : Readable s p1) (h2 : Readable s p2) :
    exec (.jumpIfFalse p1 p2) s =
      .next (s.setIp (if operandWord s p1 = 0 then operandWord s p2 else s.ip + 3)) := by
  rw [exec_jumpIfFalse, conditionalJump_of_readable _ h1 h2, complete_ok]
  simp only [nonZero_eq, Bool.not_eq_true', decide_eq_false_iff_not, not_not]

/-- Settles O32: readable operands resolve, and the target has no check (D14). -/
theorem jumpIfTrueRedirects : Obligations.JumpIfTrueRedirects :=
  fun _ _ _ h1 h2 => exec_jumpIfTrue_of_readable h1 h2

/-- Settles O33: as jump-if-true, with the condition negated (R101). -/
theorem jumpIfFalseRedirects : Obligations.JumpIfFalseRedirects :=
  fun _ _ _ h1 h2 => exec_jumpIfFalse_of_readable h1 h2

end Sys2Proof.Machine
end

section
/-! PROOFS. less-than and equals (spec 44_compare.md rules R105 and R106): their completions. -/

namespace Sys2Proof.Machine

/-- The completion that less-than and equals share: the ALU's Word is stored without a range check, in contrast to add
and multiply (R79, R105, R106). -/
theorem complete_aluWord_of_readable (op : AluOp) {p1 p2 d : Param} {s : State} (h1 : Readable s p1)
    (h2 : Readable s p2) (hd : inBounds s d.raw = true) :
    complete s (binaryStore (fun a b => .ok (aluWord op a b)) p1 p2 d s) =
      .next (stored s d (aluWord op (operandWord s p1) (operandWord s p2))) := by
  rw [binaryStore_eq_stored h1 h2 rfl hd, complete_ok]

/-- Settles O28: `exec` is the shared completion at the ALU's signed comparison. -/
theorem lessThanStoresOneOrZero : Obligations.LessThanStoresOneOrZero := by
  intro s p1 p2 d h1 h2 hd
  rw [exec_lessThan, complete_aluWord_of_readable .lt h1 h2 hd, aluWord_lt]

/-- Settles O29: `exec` is the shared completion at the ALU's equality, and Words are equal where their integers are. -/
theorem equalsStoresOneOrZero : Obligations.EqualsStoresOneOrZero := by
  intro s p1 p2 d h1 h2 hd
  rw [exec_equals, complete_aluWord_of_readable .eq h1 h2 hd, aluWord_eq]
  simp only [BitVec.toInt_inj]

end Sys2Proof.Machine
end

section
/-! PROOFS. The precision of faults (spec 60_exceptions.md rules R120, R121 and R128). -/

namespace Sys2Proof.Machine

/-- A step that ends in FAULTED is the entry of a fatal error from the state it began in (R71, R130). -/
theorem exists_eq_takeFault_of_step {s t : State} (h : step s = .next t) (ht : t.status = .faulted) :
    ∃ e, t = takeFault e s := by
  obtain ⟨hs, hfault | ⟨i, -, he⟩⟩ := step_effect h
  · exact hfault
  · exact he.eq_takeFault (by simp [hs]) ht

/-- Settles O17: a faulting step is a fault entry, which writes `status` and the fault registers alone, and every
fatal error has a code of the tables. -/
theorem faultsArePrecise : Obligations.FaultsArePrecise := by
  intro s t h ht
  obtain ⟨e, rfl⟩ := exists_eq_takeFault_of_step h ht
  exact ⟨takeFault_mem e s, takeFault_len e s, takeFault_ip e s, takeFault_inq e s, takeFault_outq e s,
    codes_mem_legalCodes e, takeFault_fip e s⟩

end Sys2Proof.Machine
end

section
/-! PROOFS. The host outside IDLE and PATCH (spec 70_reset_and_hazards.md rule R141), and the writes of the signal-level
form of the host interface (rule R145). -/

namespace Sys2Proof.Machine

/-- Settles O49: each operation but RESET checks the status first. -/
theorem hostActsOnlyInIdle : Obligations.HostActsOnlyInIdle :=
  fun maxLen _ _ hs hop => hostApply_of_not_idle maxLen hs hop

/-- Settles O51: the new memory is `Memory.write` of the old one, which differs at its address only. -/
theorem patchReplacesOneWord : Obligations.PatchReplacesOneWord := by
  intro maxLen a w s hs hwf
  constructor
  · intro hb
    exact ⟨Memory.write s.mem a.toNat w, hostApply_patch hs hb, Memory.read_write_same hwf _ _,
      fun b hne => Memory.read_write_other hwf w hne⟩
  · exact hostApply_patch_out_of_bounds maxLen w

/-! ### One write to the Program Store -/

theorem loadWrite_of_lt (maxLen : Nat) {addr : Nat} (w : Word) {s : State} (hs : s.status = .idle)
    (h : addr < s.len) : loadWrite maxLen addr w s = s.setMem (Memory.write s.mem addr w) :=
  if_pos ⟨hs, h⟩

/-- A write at `LEN` lets the store grow by one Word, up to the capacity (R145, R11). -/
theorem loadWrite_at_len {maxLen : Nat} (w : Word) {s : State} (hs : s.status = .idle) (h : s.len < maxLen) :
    loadWrite maxLen s.len w s = { s with mem := Memory.write s.mem s.len w, len := s.len + 1 } := by
  rw [loadWrite, if_neg fun hc => Nat.lt_irrefl _ hc.2, if_pos ⟨hs, rfl, h⟩]

theorem loadWrite_of_len_lt (maxLen : Nat) {addr : Nat} (w : Word) {s : State} (h : s.len < addr) :
    loadWrite maxLen addr w s = s := by
  rw [loadWrite, if_neg fun hc => by omega, if_neg fun hc => by omega]

theorem loadWrite_of_not_idle (maxLen addr : Nat) (w : Word) {s : State} (hs : s.status ≠ .idle) :
    loadWrite maxLen addr w s = s := by
  rw [loadWrite, if_neg fun hc => hs hc.1, if_neg fun hc => hs hc.1]

/-- A write in bounds is PATCH, in every status: outside IDLE both are refused. -/
theorem loadWrite_eq_hostApply_patch (maxLen : Nat) {a : Word} (w : Word) {s : State} (hb : inBounds s a = true) :
    loadWrite maxLen a.toNat w s = hostApply maxLen (.patch a w) s := by
  by_cases hs : s.status = .idle
  · rw [loadWrite_of_lt maxLen w hs (toNat_lt_of_inBounds hb), hostApply_patch hs hb]
  · rw [loadWrite_of_not_idle maxLen _ w hs, hostApply_of_not_idle maxLen hs (by simp)]

/-! ### Ascending writes -/

/-- Put an image in the Program Store: what LOAD does with one that it accepts (`hostApply_load`). -/
def State.setImage (image : List Word) (s : State) : State :=
  { s with mem := Memory.ofImage image 0, len := image.length }

theorem State.setImage_nil {s : State} (hm : s.mem = []) (hl : s.len = 0) : s.setImage [] = s := by
  cases s
  cases hm
  cases hl
  rfl

/-- A write behind the last Word of an image appends to the image. -/
theorem Memory.write_ofImage_length (ws : List Word) (k : Nat) (w : Word) :
    Memory.write (Memory.ofImage ws k) (k + ws.length) w = Memory.ofImage (ws ++ [w]) k := by
  induction ws generalizing k with
  | nil => rfl
  | cons x xs ih =>
    have hk : k + (x :: xs).length = k + 1 + xs.length := by simp; omega
    rw [hk, List.cons_append, Memory.ofImage, Memory.ofImage, ← ih]
    split
    · rfl
    · rw [Memory.write, if_neg (by omega), if_neg (by omega)]

/-- The write that follows an image already in the store. -/
theorem loadWrite_setImage {maxLen : Nat} {image : List Word} (w : Word) {s : State} (hs : s.status = .idle)
    (hl : image.length < maxLen) :
    loadWrite maxLen image.length w (s.setImage image) = s.setImage (image ++ [w]) := by
  calc loadWrite maxLen image.length w (s.setImage image)
      = { s with mem := Memory.write (Memory.ofImage image 0) image.length w, len := image.length + 1 } :=
        loadWrite_at_len (s := s.setImage image) w hs hl
    _ = s.setImage (image ++ [w]) := by
        rw [State.setImage, ← Memory.write_ofImage_length, Nat.zero_add, List.length_append, List.length_singleton]

/-- Ascending writes go on with the image whose first Words are in the store. -/
theorem loadWrites_setImage {maxLen : Nat} {image ws : List Word} {s : State} (hs : s.status = .idle)
    (hl : image.length + ws.length ≤ maxLen) :
    loadWrites maxLen image.length ws (s.setImage image) = s.setImage (image ++ ws) := by
  induction ws generalizing image with
  | nil => rw [List.append_nil, loadWrites]
  | cons w ws ih =>
    have hl' : image.length + 1 + ws.length ≤ maxLen := by rw [List.length_cons] at hl; omega
    have hlen : (image ++ [w]).length = image.length + 1 := by simp
    rw [loadWrites, loadWrite_setImage w hs (by omega), ← hlen, ih (by rwa [hlen]), List.append_assoc,
      List.singleton_append]

/-- In IDLE, appending Word by Word appends them all (R145). -/
theorem inputWrites_of_idle (ws : List Word) {s : State} (hs : s.status = .idle) :
    inputWrites ws s = s.setInq (s.inq ++ ws) := by
  induction ws generalizing s with
  | nil => rw [List.append_nil]; rfl
  | cons w ws ih =>
    calc inputWrites (w :: ws) s
        = inputWrites ws (inputWrite w s) := rfl
      _ = inputWrites ws (s.setInq (s.inq ++ [w])) := by rw [inputWrite, if_pos hs]
      _ = (s.setInq (s.inq ++ [w])).setInq (s.inq ++ [w] ++ ws) := ih hs
      _ = s.setInq (s.inq ++ w :: ws) := by rw [List.append_assoc, List.singleton_append]; rfl

/-- Settles O55: ascending writes build the image from the empty one, and each of the other writes has its own lemma. -/
theorem signalWritesAreLoadAndSupply : Obligations.SignalWritesAreLoadAndSupply := by
  refine ⟨?load, ?patch, ?refused, ?supply⟩
  case load =>
    intro maxLen image s hs hlen hmem hl
    have hw := loadWrites_setImage (maxLen := maxLen) (image := []) (ws := image) hs (by simpa using hl)
    rw [State.setImage_nil hmem hlen] at hw
    exact hw.trans (hostApply_load hs hl).symm
  case patch => exact fun maxLen a w s hb => loadWrite_eq_hostApply_patch maxLen w hb
  case refused => exact fun maxLen addr w s h => loadWrite_of_len_lt maxLen w h
  case supply => exact fun ws s hs => (inputWrites_of_idle ws hs).trans (hostApply_supply (maxLen := 0) hs).symm

end Sys2Proof.Machine
end

section
/-! PROOFS. The text of an image (spec 70_reset_and_hazards.md rule R150): trimming and splitting undo the white space
around the pieces and the commas between them. -/

namespace Sys2Proof.Machine

/-! ### Trimming -/

theorem trimFront_append {before : List Char} (text : List Char) (h : ∀ c ∈ before, c.isWhitespace = true) :
    trimFront (before ++ text) = trimFront text :=
  List.dropWhile_append_of_pos h

theorem trimFront_of_white {text : List Char} (h : ∀ c ∈ text, c.isWhitespace = true) : trimFront text = [] :=
  List.dropWhile_eq_nil_iff.mpr h

/-- Nothing is dropped in front of a text that begins with another character than white space. -/
theorem trimFront_of_head {c : Char} (cs : List Char) (h : c.isWhitespace = false) : trimFront (c :: cs) = c :: cs :=
  List.dropWhile_cons_of_neg (ne_true_of_eq_false h)

theorem trimFront_of_clean {text : List Char} (h : ∀ c ∈ text, c.isWhitespace = false) : trimFront text = text := by
  cases text with
  | nil => rfl
  | cons c cs => exact trimFront_of_head cs (h c List.mem_cons_self)

/-- Trimming removes the white space on both sides of a text that has none itself. -/
theorem trimText_of_clean {before text after : List Char} (hb : ∀ c ∈ before, c.isWhitespace = true)
    (ha : ∀ c ∈ after, c.isWhitespace = true) (ht : ∀ c ∈ text, c.isWhitespace = false) :
    trimText (before ++ text ++ after) = text := by
  rw [trimText, List.append_assoc, trimFront_append _ hb]
  cases text with
  | nil => rw [List.nil_append, trimFront_of_white ha]; rfl
  | cons c cs =>
    rw [List.cons_append, trimFront_of_head _ (ht c List.mem_cons_self), ← List.cons_append, List.reverse_append,
      trimFront_append _ fun x hx => ha x (List.mem_reverse.mp hx),
      trimFront_of_clean fun x hx => ht x (List.mem_reverse.mp hx), List.reverse_reverse]

/-! ### Splitting -/

/-- The loader's splitting is the library's. -/
theorem splitCommas_eq_splitOn (text : List Char) : splitCommas text = text.splitOn ',' := by
  induction text with
  | nil => rfl
  | cons c cs ih =>
    rw [splitCommas, ih]
    simp only [List.splitOn, List.splitOnP_cons_eq_if_modifyHead, beq_iff_eq]
    cases h : List.splitOnP (· == ',') cs with
    | nil => exact absurd h (List.splitOnP_ne_nil _ _)
    | cons piece pieces => rfl

/-! ### The characters of pieces -/

/-- A piece that is accepted consists of digits and a minus. -/
theorem isDigit_or_eq_minus_of_parsePiece {piece : List Char} {w : Word} (h : parsePiece piece = some w) {c : Char}
    (hc : c ∈ piece) : c.isDigit = true ∨ c = '-' := by
  obtain ⟨ds, hd, hp⟩ := pieceValue_eq_some.mp (parsePiece_eq_some.mp h)
  have hdigit := (isDigits_iff.mp hd).2 c
  obtain ⟨rfl, -⟩ | ⟨rfl, -⟩ := hp
  · exact .inl (hdigit hc)
  · exact (List.mem_cons.mp hc).symm.imp_left hdigit

theorem isWhitespace_eq_false_of_isDigit {c : Char} (h : c.isDigit = true) : c.isWhitespace = false := by
  by_contra hw
  simp only [Char.isWhitespace, Bool.not_eq_false, Bool.or_eq_true, decide_eq_true_eq] at hw
  obtain ((rfl | rfl) | rfl) | rfl := hw <;> exact absurd h (by decide)

theorem isWhitespace_eq_false_of_parsePiece {piece : List Char} {w : Word} (h : parsePiece piece = some w) {c : Char}
    (hc : c ∈ piece) : c.isWhitespace = false := by
  obtain hd | rfl := isDigit_or_eq_minus_of_parsePiece h hc
  · exact isWhitespace_eq_false_of_isDigit hd
  · rfl

theorem comma_not_mem_of_parsePiece {piece : List Char} {w : Word} (h : parsePiece piece = some w) : ',' ∉ piece := by
  intro hc
  obtain hd | he := isDigit_or_eq_minus_of_parsePiece h hc
  · exact absurd hd (by decide)
  · exact absurd he (by decide)

/-- A joined text has the characters of its pieces and commas. -/
theorem eq_comma_or_mem_of_mem_intercalate {pieces : List (List Char)} {c : Char}
    (hc : c ∈ List.intercalate [','] pieces) : c = ',' ∨ ∃ piece ∈ pieces, c ∈ piece := by
  induction pieces with
  | nil => simp at hc
  | cons p ps ih =>
    cases ps with
    | nil => exact .inr ⟨p, by simp, by simpa using hc⟩
    | cons q qs =>
      rw [List.intercalate_cons_cons, List.mem_append, List.mem_append, List.mem_singleton] at hc
      obtain (hp | rfl) | hq := hc
      · exact .inr ⟨p, List.mem_cons_self, hp⟩
      · exact .inl rfl
      · exact (ih hq).imp_right fun ⟨piece, hm, hcp⟩ => ⟨piece, List.mem_cons_of_mem _ hm, hcp⟩

/-! ### The image of a text -/

theorem parsePieces_eq_some {pieces : List (List Char)} {ws : List Word}
    (h : pieces.map parsePiece = ws.map some) : parsePieces pieces = some ws := by
  induction pieces generalizing ws with
  | nil => rw [List.map_eq_nil_iff.mp h.symm]; rfl
  | cons p ps ih =>
    obtain ⟨w, ws', rfl, hw, hws⟩ := List.map_eq_cons_iff.mp h.symm
    rw [parsePieces, ← hw, ih hws.symm]

/-- Trimming and splitting recover accepted pieces from their text. -/
theorem splitCommas_trimText {before after : List Char} {pieces : List (List Char)}
    (hb : ∀ c ∈ before, c.isWhitespace = true) (ha : ∀ c ∈ after, c.isWhitespace = true) (hne : pieces ≠ [])
    (hp : ∀ piece ∈ pieces, ∃ w, parsePiece piece = some w) :
    splitCommas (trimText (before ++ List.intercalate [','] pieces ++ after)) = pieces := by
  have hclean : ∀ c ∈ List.intercalate [','] pieces, c.isWhitespace = false := by
    intro c hc
    obtain rfl | ⟨piece, hm, hcp⟩ := eq_comma_or_mem_of_mem_intercalate hc
    · rfl
    · obtain ⟨w, hw⟩ := hp piece hm
      exact isWhitespace_eq_false_of_parsePiece hw hcp
  have hcomma : ∀ piece ∈ pieces, ',' ∉ piece := by
    intro piece hm
    obtain ⟨w, hw⟩ := hp piece hm
    exact comma_not_mem_of_parsePiece hw
  rw [trimText_of_clean hb ha hclean, splitCommas_eq_splitOn, List.splitOn_intercalate ',' hcomma hne]

/-- Once every piece has its Word, only the number of Words decides (R150). -/
theorem parseImage_of_parsePieces {text : List Char} {ws : List Word} (maxLen : Nat)
    (h : parsePieces (splitCommas (trimText text)) = some ws) :
    parseImage maxLen text = if ws.length ≤ maxLen then .ok ws else .error .parseError := by
  rw [parseImage, h]

/-- Settles O56: the pieces come back from the text, and their Words are counted. -/
theorem loaderDeliversThePieces : Obligations.LoaderDeliversThePieces := by
  intro maxLen before after pieces ws hb ha hne hmap
  have hp : ∀ piece ∈ pieces, ∃ w, parsePiece piece = some w := by
    intro piece hm
    obtain ⟨w, -, hw⟩ := List.mem_map.mp (hmap ▸ List.mem_map_of_mem hm)
    exact ⟨w, hw.symm⟩
  have himage := parseImage_of_parsePieces (ws := ws) maxLen
    (by rw [splitCommas_trimText hb ha hne hp, parsePieces_eq_some hmap])
  constructor
  · intro hl
    rw [himage, if_pos hl]
  · intro hl
    rw [himage, if_neg (Nat.not_le_of_lt hl)]

end Sys2Proof.Machine
end
